-- ==== Sys2Proof/Word.lean ====
section
/-! DEFINITION. The machine word. Rule R8 of 00_scope.md: a word is a bit-vector of 16 bits, bit 0 least
significant. Its unsigned reading `u(w)` is `w.toNat`, its signed two's-complement reading `s(w)` is `w.toInt`,
and `+`, `-`, `~~~`, `&&&`, `|||` on words are the spec's arithmetic modulo 2^16 and bitwise operations. -/

namespace Sys2Proof

/-- The width of A, D, a RAM cell, a ROM cell and PC (00_scope.md table R6, 10_state.md R14). -/
abbrev Word := BitVec 16

end Sys2Proof
end

