-- ==== Sys2Proof/Config.lean ====
section
/-! DEFINITION. The fixed parameters of 00_scope.md table R6, and the three parameters of table R7 that the spec
leaves open. The open ones are carried in the machine's state (`Machine.State.cfg`), so that a statement about
every state holds for every setting of them (log entry 2). -/

namespace Sys2Proof

/-- Number of RAM cells (00_scope.md table R6, `RAM_WORDS`). -/
def ramWords : Nat := 32768

/-- Largest number of ROM cells (00_scope.md table R6, `ROM_MAX`). -/
def romMax : Nat := 32768

/-- The RAM cell that is the keyboard register (20_memory.md R37). -/
def keyboardCell : Nat := 24576

/-- First RAM cell of the screen region (20_memory.md R36). -/
def screenBase : Nat := 16384

/-- Number of words of the screen region (20_memory.md R36). -/
def screenWords : Nat := 8192

/-- JUMP_A_SAMPLE (44_jump.md R152): whether a taken jump loads PC from A as it is after this instruction's
destination write, or as it was before. -/
inductive JumpASample where
  | post
  | pre
  deriving DecidableEq, Repr

/-- UNDOC_COMP (30_encoding.md R58): whether a C-instruction with an undocumented comp is executed by the ALU
(42_alu_comp.md R128) or only advances PC (R129). -/
inductive UndocComp where
  | alu
  | nop
  deriving DecidableEq, Repr

/-- HALT_DETECT (47_host_operations.md R166): whether the host's `step(n)` may return early in a halt loop. -/
inductive HaltDetect where
  | off
  | on
  deriving DecidableEq, Repr

/-- One setting of the open parameters of 00_scope.md table R7. -/
structure Config where
  jumpASample : JumpASample
  undocComp   : UndocComp
  haltDetect  : HaltDetect
  deriving DecidableEq, Repr

/-- The defaults the spec gives the open parameters (00_scope.md table R7, column "Default in this spec"). -/
def Config.specDefault : Config :=
  { jumpASample := .post, undocComp := .alu, haltDetect := .off }

end Sys2Proof
end

