-- ==== Sys2Proof/Syntax.lean ====
section
/-! DEFINITION. The instructions: one constructor of `Instr` for each of the 46 rows of spec/opcode_table.json.

The rows overlap by design (30_encoding.md R68): a C word matches the generic row, at most one comp row, one dest
row and one jump row. A constructor carries every field of the word that its own row does not fix, so each
constructor stands for whole words. Decode.lean says as which row the decoder shows a word (log entry 4). -/

namespace Sys2Proof

/-- The `a` bit of a C-instruction: which value is the ALU's `y` input (41_c_instruction.md R77). -/
inductive YSel where
  | regA
  | memM
  deriving DecidableEq, Repr

/-- The ALU control `cccccc`, its bits in the order of 42_alu_comp.md R90. -/
structure AluCtl where
  zx : Bool
  nx : Bool
  zy : Bool
  ny : Bool
  f  : Bool
  no : Bool
  deriving DecidableEq, Repr

/-- The `comp` part of a C-instruction, the pair `(a, cccccc)` (30_encoding.md R55). -/
structure Comp where
  y   : YSel
  ctl : AluCtl
  deriving DecidableEq, Repr

/-- The `ddd` field: three independent enable bits (43_dest.md R130). -/
structure Dest where
  toA : Bool
  toD : Bool
  toM : Bool
  deriving DecidableEq, Repr

/-- The `jjj` field: the conditions of the ALU output on which the jump is taken (44_jump.md R150). -/
structure Jump where
  neg  : Bool
  zero : Bool
  pos  : Bool
  deriving DecidableEq, Repr

/-- The fields of a C word (30_encoding.md table R52). -/
structure CFields where
  unused : BitVec 2
  comp   : Comp
  dest   : Dest
  jump   : Jump
  deriving DecidableEq, Repr

/-- A row of spec/opcode_table.json: a word `w` matches it when `w &&& mask = pattern` (30_encoding.md R68). -/
structure OpcodeRow where
  mask    : Word
  pattern : Word
  deriving DecidableEq, Repr

namespace Dest

/-! The eight destinations by their mnemonics (30_encoding.md table R56). -/

def none : Dest := ⟨false, false, false⟩
def M : Dest := ⟨false, false, true⟩
def D : Dest := ⟨false, true, false⟩
def MD : Dest := ⟨false, true, true⟩
def A : Dest := ⟨true, false, false⟩
def AM : Dest := ⟨true, false, true⟩
def AD : Dest := ⟨true, true, false⟩
def AMD : Dest := ⟨true, true, true⟩

end Dest

namespace Jump

/-! The eight jumps by their mnemonics (30_encoding.md table R57). -/

def none : Jump := ⟨false, false, false⟩
def JGT : Jump := ⟨false, false, true⟩
def JEQ : Jump := ⟨false, true, false⟩
def JGE : Jump := ⟨false, true, true⟩
def JLT : Jump := ⟨true, false, false⟩
def JNE : Jump := ⟨true, false, true⟩
def JLE : Jump := ⟨true, true, false⟩
def JMP : Jump := ⟨true, true, true⟩

end Jump

/-- The 28 documented comps, in the order of 42_alu_comp.md R100 to R127. -/
inductive CompRow where
  /-- `0` (R100) -/
  | zero
  /-- `1` (R101) -/
  | one
  /-- `-1` (R102) -/
  | negOne
  /-- `D` (R103) -/
  | d
  /-- `A` (R104) -/
  | a
  /-- `!D` (R105) -/
  | notD
  /-- `!A` (R106) -/
  | notA
  /-- `-D` (R107) -/
  | negD
  /-- `-A` (R108) -/
  | negA
  /-- `D+1` (R109) -/
  | dPlus1
  /-- `A+1` (R110) -/
  | aPlus1
  /-- `D-1` (R111) -/
  | dMinus1
  /-- `A-1` (R112) -/
  | aMinus1
  /-- `D+A` (R113) -/
  | dPlusA
  /-- `D-A` (R114) -/
  | dMinusA
  /-- `A-D` (R115) -/
  | aMinusD
  /-- `D&A` (R116) -/
  | dAndA
  /-- `D|A` (R117) -/
  | dOrA
  /-- `M` (R118) -/
  | m
  /-- `!M` (R119) -/
  | notM
  /-- `-M` (R120) -/
  | negM
  /-- `M+1` (R121) -/
  | mPlus1
  /-- `M-1` (R122) -/
  | mMinus1
  /-- `D+M` (R123) -/
  | dPlusM
  /-- `D-M` (R124) -/
  | dMinusM
  /-- `M-D` (R125) -/
  | mMinusD
  /-- `D&M` (R126) -/
  | dAndM
  /-- `D|M` (R127) -/
  | dOrM
  deriving DecidableEq, Repr

/-- An instruction. `unused` is bits 14..13 of a C word, which the CPU does not examine (30_encoding.md R53). -/
inductive Instr where
  /-- `@value` (40_a_instruction.md R70) -/
  | atValue (value : BitVec 15)
  /-- `[DEST=]COMP[;JUMP]`, the generic C row (41_c_instruction.md R76) -/
  | cGeneric (unused : BitVec 2) (comp : Comp) (dest : Dest) (jump : Jump)
  /-- comp `0` (42_alu_comp.md R100) -/
  | comp0 (unused : BitVec 2) (dest : Dest) (jump : Jump)
  /-- comp `1` (42_alu_comp.md R101) -/
  | comp1 (unused : BitVec 2) (dest : Dest) (jump : Jump)
  /-- comp `-1` (42_alu_comp.md R102) -/
  | compNeg1 (unused : BitVec 2) (dest : Dest) (jump : Jump)
  /-- comp `D` (42_alu_comp.md R103) -/
  | compD (unused : BitVec 2) (dest : Dest) (jump : Jump)
  /-- comp `A` (42_alu_comp.md R104) -/
  | compA (unused : BitVec 2) (dest : Dest) (jump : Jump)
  /-- comp `!D` (42_alu_comp.md R105) -/
  | compNotD (unused : BitVec 2) (dest : Dest) (jump : Jump)
  /-- comp `!A` (42_alu_comp.md R106) -/
  | compNotA (unused : BitVec 2) (dest : Dest) (jump : Jump)
  /-- comp `-D` (42_alu_comp.md R107) -/
  | compNegD (unused : BitVec 2) (dest : Dest) (jump : Jump)
  /-- comp `-A` (42_alu_comp.md R108) -/
  | compNegA (unused : BitVec 2) (dest : Dest) (jump : Jump)
  /-- comp `D+1` (42_alu_comp.md R109) -/
  | compDPlus1 (unused : BitVec 2) (dest : Dest) (jump : Jump)
  /-- comp `A+1` (42_alu_comp.md R110) -/
  | compAPlus1 (unused : BitVec 2) (dest : Dest) (jump : Jump)
  /-- comp `D-1` (42_alu_comp.md R111) -/
  | compDMinus1 (unused : BitVec 2) (dest : Dest) (jump : Jump)
  /-- comp `A-1` (42_alu_comp.md R112) -/
  | compAMinus1 (unused : BitVec 2) (dest : Dest) (jump : Jump)
  /-- comp `D+A` (42_alu_comp.md R113) -/
  | compDPlusA (unused : BitVec 2) (dest : Dest) (jump : Jump)
  /-- comp `D-A` (42_alu_comp.md R114) -/
  | compDMinusA (unused : BitVec 2) (dest : Dest) (jump : Jump)
  /-- comp `A-D` (42_alu_comp.md R115) -/
  | compAMinusD (unused : BitVec 2) (dest : Dest) (jump : Jump)
  /-- comp `D&A` (42_alu_comp.md R116) -/
  | compDAndA (unused : BitVec 2) (dest : Dest) (jump : Jump)
  /-- comp `D|A` (42_alu_comp.md R117) -/
  | compDOrA (unused : BitVec 2) (dest : Dest) (jump : Jump)
  /-- comp `M` (42_alu_comp.md R118) -/
  | compM (unused : BitVec 2) (dest : Dest) (jump : Jump)
  /-- comp `!M` (42_alu_comp.md R119) -/
  | compNotM (unused : BitVec 2) (dest : Dest) (jump : Jump)
  /-- comp `-M` (42_alu_comp.md R120) -/
  | compNegM (unused : BitVec 2) (dest : Dest) (jump : Jump)
  /-- comp `M+1` (42_alu_comp.md R121) -/
  | compMPlus1 (unused : BitVec 2) (dest : Dest) (jump : Jump)
  /-- comp `M-1` (42_alu_comp.md R122) -/
  | compMMinus1 (unused : BitVec 2) (dest : Dest) (jump : Jump)
  /-- comp `D+M` (42_alu_comp.md R123) -/
  | compDPlusM (unused : BitVec 2) (dest : Dest) (jump : Jump)
  /-- comp `D-M` (42_alu_comp.md R124) -/
  | compDMinusM (unused : BitVec 2) (dest : Dest) (jump : Jump)
  /-- comp `M-D` (42_alu_comp.md R125) -/
  | compMMinusD (unused : BitVec 2) (dest : Dest) (jump : Jump)
  /-- comp `D&M` (42_alu_comp.md R126) -/
  | compDAndM (unused : BitVec 2) (dest : Dest) (jump : Jump)
  /-- comp `D|M` (42_alu_comp.md R127) -/
  | compDOrM (unused : BitVec 2) (dest : Dest) (jump : Jump)
  /-- dest `000`, null (43_dest.md R131) -/
  | destNull (unused : BitVec 2) (comp : Comp) (jump : Jump)
  /-- dest `001`, M (43_dest.md R132) -/
  | destM (unused : BitVec 2) (comp : Comp) (jump : Jump)
  /-- dest `010`, D (43_dest.md R133) -/
  | destD (unused : BitVec 2) (comp : Comp) (jump : Jump)
  /-- dest `011`, MD (43_dest.md R134) -/
  | destMD (unused : BitVec 2) (comp : Comp) (jump : Jump)
  /-- dest `100`, A (43_dest.md R135) -/
  | destA (unused : BitVec 2) (comp : Comp) (jump : Jump)
  /-- dest `101`, AM (43_dest.md R136) -/
  | destAM (unused : BitVec 2) (comp : Comp) (jump : Jump)
  /-- dest `110`, AD (43_dest.md R137) -/
  | destAD (unused : BitVec 2) (comp : Comp) (jump : Jump)
  /-- dest `111`, AMD (43_dest.md R138) -/
  | destAMD (unused : BitVec 2) (comp : Comp) (jump : Jump)
  /-- jump `000`, null (44_jump.md R141) -/
  | jumpNull (unused : BitVec 2) (comp : Comp) (dest : Dest)
  /-- jump `001`, JGT (44_jump.md R142) -/
  | jumpJGT (unused : BitVec 2) (comp : Comp) (dest : Dest)
  /-- jump `010`, JEQ (44_jump.md R143) -/
  | jumpJEQ (unused : BitVec 2) (comp : Comp) (dest : Dest)
  /-- jump `011`, JGE (44_jump.md R144) -/
  | jumpJGE (unused : BitVec 2) (comp : Comp) (dest : Dest)
  /-- jump `100`, JLT (44_jump.md R145) -/
  | jumpJLT (unused : BitVec 2) (comp : Comp) (dest : Dest)
  /-- jump `101`, JNE (44_jump.md R146) -/
  | jumpJNE (unused : BitVec 2) (comp : Comp) (dest : Dest)
  /-- jump `110`, JLE (44_jump.md R147) -/
  | jumpJLE (unused : BitVec 2) (comp : Comp) (dest : Dest)
  /-- jump `111`, JMP (44_jump.md R148) -/
  | jumpJMP (unused : BitVec 2) (comp : Comp) (dest : Dest)
  deriving DecidableEq, Repr

end Sys2Proof
end

