-- ==== Sys2Proof/Decode.lean ====
section
/-! DEFINITION. The encoding of 30_encoding.md: the field layouts (tables R51, R52), the 28 comp codes (table R55),
the decoder, total on all 65536 words (R50: no word is illegal, so there is nothing to reject), and after it the
encoder, written from the same tables. The machine is word-addressed and has no byte order (20_memory.md R39), so
the decoder reads words, not bytes. -/

namespace Sys2Proof

/-! ### Fields and their codes -/

/-- The `a` bit (30_encoding.md table R52, bit 12): 0 selects A, 1 selects M. -/
def YSel.ofBit : Bool → YSel
  | false => .regA
  | true  => .memM

def YSel.bit : YSel → Bool
  | .regA => false
  | .memM => true

/-- `cccccc` as a number, `zx` its highest bit (42_alu_comp.md R90). -/
def AluCtl.ofCode (c : BitVec 6) : AluCtl :=
  ⟨c.getLsbD 5, c.getLsbD 4, c.getLsbD 3, c.getLsbD 2, c.getLsbD 1, c.getLsbD 0⟩

/-- `ddd` as a number, d1 = A its highest bit (30_encoding.md table R56). -/
def Dest.ofCode (c : BitVec 3) : Dest :=
  ⟨c.getLsbD 2, c.getLsbD 1, c.getLsbD 0⟩

/-- `jjj` as a number, j1 = neg its highest bit (30_encoding.md table R57). -/
def Jump.ofCode (c : BitVec 3) : Jump :=
  ⟨c.getLsbD 2, c.getLsbD 1, c.getLsbD 0⟩

def AluCtl.code (c : AluCtl) : BitVec 6 :=
  BitVec.ofBool c.zx ++ BitVec.ofBool c.nx ++ BitVec.ofBool c.zy ++ BitVec.ofBool c.ny ++ BitVec.ofBool c.f ++ BitVec.ofBool c.no

def Dest.code (d : Dest) : BitVec 3 :=
  BitVec.ofBool d.toA ++ BitVec.ofBool d.toD ++ BitVec.ofBool d.toM

def Jump.code (j : Jump) : BitVec 3 :=
  BitVec.ofBool j.neg ++ BitVec.ofBool j.zero ++ BitVec.ofBool j.pos

/-! ### The documented comps -/

/-- The pair `(a, cccccc)` of each documented comp (30_encoding.md table R55). -/
def CompRow.comp : CompRow → Comp
  | .zero     => ⟨.regA, .ofCode 0b101010#6⟩
  | .one      => ⟨.regA, .ofCode 0b111111#6⟩
  | .negOne   => ⟨.regA, .ofCode 0b111010#6⟩
  | .d        => ⟨.regA, .ofCode 0b001100#6⟩
  | .a        => ⟨.regA, .ofCode 0b110000#6⟩
  | .notD     => ⟨.regA, .ofCode 0b001101#6⟩
  | .notA     => ⟨.regA, .ofCode 0b110001#6⟩
  | .negD     => ⟨.regA, .ofCode 0b001111#6⟩
  | .negA     => ⟨.regA, .ofCode 0b110011#6⟩
  | .dPlus1   => ⟨.regA, .ofCode 0b011111#6⟩
  | .aPlus1   => ⟨.regA, .ofCode 0b110111#6⟩
  | .dMinus1  => ⟨.regA, .ofCode 0b001110#6⟩
  | .aMinus1  => ⟨.regA, .ofCode 0b110010#6⟩
  | .dPlusA   => ⟨.regA, .ofCode 0b000010#6⟩
  | .dMinusA  => ⟨.regA, .ofCode 0b010011#6⟩
  | .aMinusD  => ⟨.regA, .ofCode 0b000111#6⟩
  | .dAndA    => ⟨.regA, .ofCode 0b000000#6⟩
  | .dOrA     => ⟨.regA, .ofCode 0b010101#6⟩
  | .m        => ⟨.memM, .ofCode 0b110000#6⟩
  | .notM     => ⟨.memM, .ofCode 0b110001#6⟩
  | .negM     => ⟨.memM, .ofCode 0b110011#6⟩
  | .mPlus1   => ⟨.memM, .ofCode 0b110111#6⟩
  | .mMinus1  => ⟨.memM, .ofCode 0b110010#6⟩
  | .dPlusM   => ⟨.memM, .ofCode 0b000010#6⟩
  | .dMinusM  => ⟨.memM, .ofCode 0b010011#6⟩
  | .mMinusD  => ⟨.memM, .ofCode 0b000111#6⟩
  | .dAndM    => ⟨.memM, .ofCode 0b000000#6⟩
  | .dOrM     => ⟨.memM, .ofCode 0b010101#6⟩

/-- The documented comps in the order of 30_encoding.md table R55. -/
def CompRow.all : List CompRow :=
  [.zero, .one, .negOne, .d, .a, .notD, .notA, .negD, .negA,
   .dPlus1, .aPlus1, .dMinus1, .aMinus1, .dPlusA, .dMinusA, .aMinusD, .dAndA, .dOrA,
   .m, .notM, .negM, .mPlus1, .mMinus1, .dPlusM, .dMinusM, .mMinusD, .dAndM, .dOrM]

/-- The row of table R55 a comp is, if any; `none` is an undocumented comp (30_encoding.md R58). -/
def Comp.row? (c : Comp) : Option CompRow :=
  CompRow.all.find? fun r => r.comp == c

def Comp.documented (c : Comp) : Bool :=
  c.row?.isSome

/-! ### C words as fields -/

/-- Bits 14..13, 12, 11..6, 5..3 and 2..0 of a C word (30_encoding.md table R52). -/
def CFields.ofWord (w : Word) : CFields where
  unused := w.extractLsb' 13 2
  comp   := ⟨.ofBit (w.getLsbD 12), .ofCode (w.extractLsb' 6 6)⟩
  dest   := .ofCode (w.extractLsb' 3 3)
  jump   := .ofCode (w.extractLsb' 0 3)

/-- The C word with these fields, `0x8000 | unused<<13 | a<<12 | c<<6 | d<<3 | j` (30_encoding.md R63, with bits 14..13
as given). -/
def CFields.toWord (f : CFields) : Word :=
  0x8000#16 ||| f.unused.zeroExtend 16 <<< 13 ||| (BitVec.ofBool f.comp.y.bit).zeroExtend 16 <<< 12 |||
    f.comp.ctl.code.zeroExtend 16 <<< 6 ||| f.dest.code.zeroExtend 16 <<< 3 ||| f.jump.code.zeroExtend 16

/-! ### Fields as a row of the opcode table -/

/-- The instruction of a documented comp's row. -/
def CompRow.instr (r : CompRow) (u : BitVec 2) (d : Dest) (j : Jump) : Instr :=
  match r with
  | .zero     => .comp0 u d j
  | .one      => .comp1 u d j
  | .negOne   => .compNeg1 u d j
  | .d        => .compD u d j
  | .a        => .compA u d j
  | .notD     => .compNotD u d j
  | .notA     => .compNotA u d j
  | .negD     => .compNegD u d j
  | .negA     => .compNegA u d j
  | .dPlus1   => .compDPlus1 u d j
  | .aPlus1   => .compAPlus1 u d j
  | .dMinus1  => .compDMinus1 u d j
  | .aMinus1  => .compAMinus1 u d j
  | .dPlusA   => .compDPlusA u d j
  | .dMinusA  => .compDMinusA u d j
  | .aMinusD  => .compAMinusD u d j
  | .dAndA    => .compDAndA u d j
  | .dOrA     => .compDOrA u d j
  | .m        => .compM u d j
  | .notM     => .compNotM u d j
  | .negM     => .compNegM u d j
  | .mPlus1   => .compMPlus1 u d j
  | .mMinus1  => .compMMinus1 u d j
  | .dPlusM   => .compDPlusM u d j
  | .dMinusM  => .compDMinusM u d j
  | .mMinusD  => .compMMinusD u d j
  | .dAndM    => .compDAndM u d j
  | .dOrM     => .compDOrM u d j

/-- The instruction of a dest row (30_encoding.md table R56). -/
def Dest.instr (d : Dest) (u : BitVec 2) (c : Comp) (j : Jump) : Instr :=
  match d with
  | ⟨false, false, false⟩ => .destNull u c j
  | ⟨false, false, true⟩ => .destM u c j
  | ⟨false, true, false⟩ => .destD u c j
  | ⟨false, true, true⟩ => .destMD u c j
  | ⟨true, false, false⟩ => .destA u c j
  | ⟨true, false, true⟩ => .destAM u c j
  | ⟨true, true, false⟩ => .destAD u c j
  | ⟨true, true, true⟩ => .destAMD u c j

/-- The instruction of a jump row (30_encoding.md table R57). -/
def Jump.instr (j : Jump) (u : BitVec 2) (c : Comp) (d : Dest) : Instr :=
  match j with
  | ⟨false, false, false⟩ => .jumpNull u c d
  | ⟨false, false, true⟩ => .jumpJGT u c d
  | ⟨false, true, false⟩ => .jumpJEQ u c d
  | ⟨false, true, true⟩ => .jumpJGE u c d
  | ⟨true, false, false⟩ => .jumpJLT u c d
  | ⟨true, false, true⟩ => .jumpJNE u c d
  | ⟨true, true, false⟩ => .jumpJLE u c d
  | ⟨true, true, true⟩ => .jumpJMP u c d

/-- The row the decoder shows a C word as, among those that match it (30_encoding.md R68; DESIGN CHOICE, safe, log
entry 4): a word that writes and does not jump is its dest row; one that jumps and does not write is its jump row;
one that does both or neither is its comp row, or, where its comp is undocumented, the generic row (both) or the
null dest or null jump row (neither, by the `a` bit). All rows that match a word execute alike. -/
def CFields.instr (f : CFields) : Instr :=
  if f.dest = .none then
    if f.jump = .none then
      match f.comp.row? with
      | some r => r.instr f.unused f.dest f.jump
      | none =>
        match f.comp.y with
        | .regA => .destNull f.unused f.comp f.jump
        | .memM => .jumpNull f.unused f.comp f.dest
    else f.jump.instr f.unused f.comp f.dest
  else if f.jump = .none then f.dest.instr f.unused f.comp f.jump
  else
    match f.comp.row? with
    | some r => r.instr f.unused f.dest f.jump
    | none => .cGeneric f.unused f.comp f.dest f.jump

/-! ### Decoder -/

/-- The decoder: bit 15 alone tells the two formats apart (30_encoding.md R50). -/
def decode (w : Word) : Instr :=
  if w.getLsbD 15 then (CFields.ofWord w).instr else .atValue (w.extractLsb' 0 15)

/-- The decoder on a word numbered as spec/opcode_table.json numbers it. Every instruction is one 16-bit word
(30_encoding.md R50), so a row of more than 16 bits is none of this machine's. -/
def decodeTableWord (nbits w : Nat) : Option Instr :=
  if nbits ≤ 16 then some (decode (.ofNat 16 (w % 2 ^ nbits))) else none

/-! ### Encoder -/

/-- The fields an instruction's row fixes together with those it carries; `none` for the A-instruction. -/
def Instr.cFields? : Instr → Option CFields
  | .atValue _ => none
  | .cGeneric u c d j => some ⟨u, c, d, j⟩
  | .comp0 u d j => some ⟨u, CompRow.zero.comp, d, j⟩
  | .comp1 u d j => some ⟨u, CompRow.one.comp, d, j⟩
  | .compNeg1 u d j => some ⟨u, CompRow.negOne.comp, d, j⟩
  | .compD u d j => some ⟨u, CompRow.d.comp, d, j⟩
  | .compA u d j => some ⟨u, CompRow.a.comp, d, j⟩
  | .compNotD u d j => some ⟨u, CompRow.notD.comp, d, j⟩
  | .compNotA u d j => some ⟨u, CompRow.notA.comp, d, j⟩
  | .compNegD u d j => some ⟨u, CompRow.negD.comp, d, j⟩
  | .compNegA u d j => some ⟨u, CompRow.negA.comp, d, j⟩
  | .compDPlus1 u d j => some ⟨u, CompRow.dPlus1.comp, d, j⟩
  | .compAPlus1 u d j => some ⟨u, CompRow.aPlus1.comp, d, j⟩
  | .compDMinus1 u d j => some ⟨u, CompRow.dMinus1.comp, d, j⟩
  | .compAMinus1 u d j => some ⟨u, CompRow.aMinus1.comp, d, j⟩
  | .compDPlusA u d j => some ⟨u, CompRow.dPlusA.comp, d, j⟩
  | .compDMinusA u d j => some ⟨u, CompRow.dMinusA.comp, d, j⟩
  | .compAMinusD u d j => some ⟨u, CompRow.aMinusD.comp, d, j⟩
  | .compDAndA u d j => some ⟨u, CompRow.dAndA.comp, d, j⟩
  | .compDOrA u d j => some ⟨u, CompRow.dOrA.comp, d, j⟩
  | .compM u d j => some ⟨u, CompRow.m.comp, d, j⟩
  | .compNotM u d j => some ⟨u, CompRow.notM.comp, d, j⟩
  | .compNegM u d j => some ⟨u, CompRow.negM.comp, d, j⟩
  | .compMPlus1 u d j => some ⟨u, CompRow.mPlus1.comp, d, j⟩
  | .compMMinus1 u d j => some ⟨u, CompRow.mMinus1.comp, d, j⟩
  | .compDPlusM u d j => some ⟨u, CompRow.dPlusM.comp, d, j⟩
  | .compDMinusM u d j => some ⟨u, CompRow.dMinusM.comp, d, j⟩
  | .compMMinusD u d j => some ⟨u, CompRow.mMinusD.comp, d, j⟩
  | .compDAndM u d j => some ⟨u, CompRow.dAndM.comp, d, j⟩
  | .compDOrM u d j => some ⟨u, CompRow.dOrM.comp, d, j⟩
  | .destNull u c j => some ⟨u, c, Dest.none, j⟩
  | .destM u c j => some ⟨u, c, Dest.M, j⟩
  | .destD u c j => some ⟨u, c, Dest.D, j⟩
  | .destMD u c j => some ⟨u, c, Dest.MD, j⟩
  | .destA u c j => some ⟨u, c, Dest.A, j⟩
  | .destAM u c j => some ⟨u, c, Dest.AM, j⟩
  | .destAD u c j => some ⟨u, c, Dest.AD, j⟩
  | .destAMD u c j => some ⟨u, c, Dest.AMD, j⟩
  | .jumpNull u c d => some ⟨u, c, d, Jump.none⟩
  | .jumpJGT u c d => some ⟨u, c, d, Jump.JGT⟩
  | .jumpJEQ u c d => some ⟨u, c, d, Jump.JEQ⟩
  | .jumpJGE u c d => some ⟨u, c, d, Jump.JGE⟩
  | .jumpJLT u c d => some ⟨u, c, d, Jump.JLT⟩
  | .jumpJNE u c d => some ⟨u, c, d, Jump.JNE⟩
  | .jumpJLE u c d => some ⟨u, c, d, Jump.JLE⟩
  | .jumpJMP u c d => some ⟨u, c, d, Jump.JMP⟩

/-- The word of an instruction: the A-format word is its value with bit 15 clear (30_encoding.md R51), a C-format
word holds its fields (R52). -/
def encode : Instr → Word
  | .atValue v => v.zeroExtend 16
  | i =>
    match i.cFields? with
    | some f => f.toWord
    | none => 0#16

/-! ### The opcode table -/

def OpcodeRow.matchesWord (r : OpcodeRow) (w : Word) : Bool :=
  w &&& r.mask == r.pattern

/-- Each constructor's row, as spec/opcode_table.json prints its mask and match. -/
def Instr.opcodeRow : Instr → OpcodeRow
  | .atValue _ => ⟨0x8000#16, 0x0000#16⟩
  | .cGeneric _ _ _ _ => ⟨0x8000#16, 0x8000#16⟩
  | .comp0 _ _ _ => ⟨0x9FC0#16, 0x8A80#16⟩
  | .comp1 _ _ _ => ⟨0x9FC0#16, 0x8FC0#16⟩
  | .compNeg1 _ _ _ => ⟨0x9FC0#16, 0x8E80#16⟩
  | .compD _ _ _ => ⟨0x9FC0#16, 0x8300#16⟩
  | .compA _ _ _ => ⟨0x9FC0#16, 0x8C00#16⟩
  | .compNotD _ _ _ => ⟨0x9FC0#16, 0x8340#16⟩
  | .compNotA _ _ _ => ⟨0x9FC0#16, 0x8C40#16⟩
  | .compNegD _ _ _ => ⟨0x9FC0#16, 0x83C0#16⟩
  | .compNegA _ _ _ => ⟨0x9FC0#16, 0x8CC0#16⟩
  | .compDPlus1 _ _ _ => ⟨0x9FC0#16, 0x87C0#16⟩
  | .compAPlus1 _ _ _ => ⟨0x9FC0#16, 0x8DC0#16⟩
  | .compDMinus1 _ _ _ => ⟨0x9FC0#16, 0x8380#16⟩
  | .compAMinus1 _ _ _ => ⟨0x9FC0#16, 0x8C80#16⟩
  | .compDPlusA _ _ _ => ⟨0x9FC0#16, 0x8080#16⟩
  | .compDMinusA _ _ _ => ⟨0x9FC0#16, 0x84C0#16⟩
  | .compAMinusD _ _ _ => ⟨0x9FC0#16, 0x81C0#16⟩
  | .compDAndA _ _ _ => ⟨0x9FC0#16, 0x8000#16⟩
  | .compDOrA _ _ _ => ⟨0x9FC0#16, 0x8540#16⟩
  | .compM _ _ _ => ⟨0x9FC0#16, 0x9C00#16⟩
  | .compNotM _ _ _ => ⟨0x9FC0#16, 0x9C40#16⟩
  | .compNegM _ _ _ => ⟨0x9FC0#16, 0x9CC0#16⟩
  | .compMPlus1 _ _ _ => ⟨0x9FC0#16, 0x9DC0#16⟩
  | .compMMinus1 _ _ _ => ⟨0x9FC0#16, 0x9C80#16⟩
  | .compDPlusM _ _ _ => ⟨0x9FC0#16, 0x9080#16⟩
  | .compDMinusM _ _ _ => ⟨0x9FC0#16, 0x94C0#16⟩
  | .compMMinusD _ _ _ => ⟨0x9FC0#16, 0x91C0#16⟩
  | .compDAndM _ _ _ => ⟨0x9FC0#16, 0x9000#16⟩
  | .compDOrM _ _ _ => ⟨0x9FC0#16, 0x9540#16⟩
  | .destNull _ _ _ => ⟨0x8038#16, 0x8000#16⟩
  | .destM _ _ _ => ⟨0x8038#16, 0x8008#16⟩
  | .destD _ _ _ => ⟨0x8038#16, 0x8010#16⟩
  | .destMD _ _ _ => ⟨0x8038#16, 0x8018#16⟩
  | .destA _ _ _ => ⟨0x8038#16, 0x8020#16⟩
  | .destAM _ _ _ => ⟨0x8038#16, 0x8028#16⟩
  | .destAD _ _ _ => ⟨0x8038#16, 0x8030#16⟩
  | .destAMD _ _ _ => ⟨0x8038#16, 0x8038#16⟩
  | .jumpNull _ _ _ => ⟨0x8007#16, 0x8000#16⟩
  | .jumpJGT _ _ _ => ⟨0x8007#16, 0x8001#16⟩
  | .jumpJEQ _ _ _ => ⟨0x8007#16, 0x8002#16⟩
  | .jumpJGE _ _ _ => ⟨0x8007#16, 0x8003#16⟩
  | .jumpJLT _ _ _ => ⟨0x8007#16, 0x8004#16⟩
  | .jumpJNE _ _ _ => ⟨0x8007#16, 0x8005#16⟩
  | .jumpJLE _ _ _ => ⟨0x8007#16, 0x8006#16⟩
  | .jumpJMP _ _ _ => ⟨0x8007#16, 0x8007#16⟩

end Sys2Proof
end

