-- ==== Sys2Proof/Machine/Alu.lean ====
section
/-! DEFINITION. The ALU: a pure function of its two inputs and the six control bits (42_alu_comp.md R90). -/

namespace Sys2Proof.Machine

/-- Pseudocode R91 of 42_alu_comp.md: `zx`, `nx` condition `x`; `zy`, `ny` condition `y`; `f` adds or ands; `no`
complements. All modulo 2^16, no carry out. -/
def alu (x y : Word) (c : AluCtl) : Word :=
  let x := if c.zx then 0#16 else x
  let x := if c.nx then ~~~x else x
  let y := if c.zy then 0#16 else y
  let y := if c.ny then ~~~y else y
  let r := if c.f then x + y else x &&& y
  if c.no then ~~~r else r

end Sys2Proof.Machine
end

