-- ==== Sys2Proof/Machine/State.lean ====
section
/-! DEFINITION. The state of the machine, all of it (10_state.md R10), as plain data, and its value after reset. -/

namespace Sys2Proof.Machine

/-- The data memory as (address, word) pairs. The word is the smallest addressable unit (20_memory.md R39; log
entry 3). The canonical form is `Memory.wf` (Ops.lean): addresses strictly rising and below 32768, and no entry equal
to `Memory.unlisted`. -/
abbrev Memory := List (Nat × Word)

/-- The whole state (10_state.md R10). There are no flags, control, status or other registers (R18 to R21). `rom_len`
is `rom.length` (R16). -/
structure State where
  /-- Register A (10_state.md R11). -/
  regA : Word
  /-- Register D (10_state.md R12). -/
  regD : Word
  /-- The program counter, the ROM index of the instruction to execute (10_state.md R14). -/
  pc   : Word
  /-- The data memory, screen and keyboard cells included (20_memory.md R34 to R37). -/
  ram  : Memory
  /-- The instruction memory, index 0 first; it holds `rom_len` words and is not padded (10_state.md R16). -/
  rom  : List Word
  /-- The open parameters of 00_scope.md table R7; the model's own field, constant while the machine runs (log
  entry 2). -/
  cfg  : Config
  deriving DecidableEq, Repr

/-- Why a step does not exist. -/
inductive Fault where
  /-- Raised by `step` alone, before any effect, when `u(pc) >= rom_len` (10_state.md R17, 60_exceptions.md R182).
  Safe: the machine has no step there, so nothing further is claimed of it. -/
  | stuck
  deriving DecidableEq, Repr

/-- Why the model declines. -/
inductive Refusal where
  /-- For an arm of `exec` without a meaning; no arm raises it. Safe: nothing is claimed of such an instruction. -/
  | notModelled (mnemonic : String)
  deriving DecidableEq, Repr

/-- The state after an accepted `load_rom` of these ROM words (10_state.md R22). -/
def State.launch (cfg : Config) (rom : List Word) : State :=
  { regA := 0#16, regD := 0#16, pc := 0#16, ram := [], rom := rom, cfg := cfg }

/-- The machine right after reset. Reset and program load are one operation (70_reset_and_hazards.md R201); this is
reset with the empty ROM, which is a legal one (47_host_operations.md R161; log entry 7), under the spec's default
parameters. -/
def State.reset : State :=
  State.launch .specDefault []

end Sys2Proof.Machine
end

