-- ==== Sys2Proof/Machine/Ops.lean ====
section
/-! DEFINITION. The operations over memory and registers. The machine has no exception, interrupt or trap, hence no
exception entry and no return from one (60_exceptions.md R180, R183, R185, R186): there is no such operation to write
here. -/

namespace Sys2Proof.Machine

/-! ### The data memory as a store of words -/

/-- What an unlisted RAM cell reads as: the reset content of every cell (10_state.md R22). -/
def Memory.unlisted : Word := 0#16

/-- The word in cell `i`. -/
def Memory.read : Memory → Nat → Word
  | [], _ => Memory.unlisted
  | (k, v) :: m, i => if k = i then v else Memory.read m i

/-- The memory without an entry for cell `i`. -/
def Memory.erase : Memory → Nat → Memory
  | [], _ => []
  | (k, v) :: m, i => if k = i then Memory.erase m i else (k, v) :: Memory.erase m i

/-- The memory with an entry for cell `i` put where its address belongs. -/
def Memory.insert : Memory → Nat → Word → Memory
  | [], i, w => [(i, w)]
  | (k, v) :: m, i, w => if i < k then (i, w) :: (k, v) :: m else (k, v) :: Memory.insert m i w

/-- Store `w` in cell `i`, keeping the canonical form: the word an unlisted cell reads as is not listed. -/
def Memory.write (m : Memory) (i : Nat) (w : Word) : Memory :=
  if w = Memory.unlisted then m.erase i else (m.erase i).insert i w

/-- Canonical form from address `lo` on. -/
def Memory.wfFrom : Nat → Memory → Bool
  | _, [] => true
  | lo, (k, v) :: m => decide (lo ≤ k) && decide (k < ramWords) && (v != Memory.unlisted) && Memory.wfFrom (k + 1) m

/-- The canonical form of a RAM of 32768 cells: strictly rising addresses below 32768, no entry equal to
`Memory.unlisted`. -/
def Memory.wf (m : Memory) : Bool :=
  Memory.wfFrom 0 m

/-! ### Access by an address word -/

/-- The RAM cell an address word names: its low 15 bits (20_memory.md R32). -/
def effAddr (w : Word) : Nat :=
  (w &&& 0x7FFF#16).toNat

/-- `MemRead(addr, 1)` (00_scope.md R8). -/
def State.memRead (s : State) (addr : Word) : Word :=
  s.ram.read (effAddr addr)

/-- `MemWrite(addr, 1, v)` (00_scope.md R8). -/
def State.memWrite (s : State) (addr v : Word) : State :=
  { s with ram := s.ram.write (effAddr addr) v }

/-! ### Registers -/

/-- `x[A] <- v` -/
def State.setA (s : State) (v : Word) : State :=
  { s with regA := v }

/-- `x[D] <- v` -/
def State.setD (s : State) (v : Word) : State :=
  { s with regD := v }

/-- `pc <- t`, all 16 bits (10_state.md R15) -/
def State.setPc (s : State) (t : Word) : State :=
  { s with pc := t }

/-- `pc <- pc + 1` (10_state.md R15). It cannot wrap in a step, where `pc < rom_len <= 32768` (R17; log entry 6). -/
def State.nextPc (s : State) : State :=
  s.setPc (s.pc + 1#16)

/-! ### Fetch -/

/-- `RomRead(pc)`, which exists only for `u(pc) < rom_len` (00_scope.md R8, 10_state.md R17). -/
def State.fetch (s : State) : Option Word :=
  s.rom[s.pc.toNat]?

end Sys2Proof.Machine
end

