-- ==== Sys2Proof/Machine/Flags.lean ====
section
/-! DEFINITION. The conditions of the ALU output and the jump decision. They live inside one step; the machine stores
no flag (10_state.md R18). -/

namespace Sys2Proof.Machine

/-- `ng = out[15]` (42_alu_comp.md R93) -/
def isNeg (out : Word) : Bool := out.getLsbD 15

/-- `zr = (out = 0x0000)` (42_alu_comp.md R93) -/
def isZero (out : Word) : Bool := out == 0#16

/-- `ps = (not ng) and (not zr)` (42_alu_comp.md R93) -/
def isPos (out : Word) : Bool := !isNeg out && !isZero out

/-- Whether the jump is taken (44_jump.md R150). -/
def jumpTaken (j : Jump) (out : Word) : Bool :=
  (j.neg && isNeg out) || (j.zero && isZero out) || (j.pos && isPos out)

/-- The target of a taken jump (44_jump.md R151, R152): A as it is now (POST), or `a0`, A as it was before the
instruction (PRE). All 16 bits, unmasked. -/
def State.jumpTarget (s : State) (a0 : Word) : Word :=
  match s.cfg.jumpASample with
  | .post => s.regA
  | .pre  => a0

/-- The PC update of a C-instruction (41_c_instruction.md R82), after its destination writes. -/
def State.finishJump (s : State) (a0 : Word) (j : Jump) (out : Word) : State :=
  if jumpTaken j out then s.setPc (s.jumpTarget a0) else s.nextPc

end Sys2Proof.Machine
end

