-- ==== Sys2Proof/Machine/Operands.lean ====
section
/-! DEFINITION. The operand forms of a C-instruction: the `y` input (41_c_instruction.md R77), and the destinations
(43_dest.md R130). The `x` input is always D. The one addressing mode is register-indirect through A (R139), which is
`State.memRead` and `State.memWrite` on A. -/

namespace Sys2Proof.Machine

/-- The ALU's `y` input: A, or the cell A names (41_c_instruction.md R77). -/
def State.yOperand (s : State) : YSel → Word
  | .regA => s.regA
  | .memM => s.memRead s.regA

/-- `out` goes to every enabled destination. The M address is formed from the A of before the instruction, so M is
written first (41_c_instruction.md R78, R80; 43_dest.md R130). -/
def State.writeDest (s : State) (d : Dest) (out : Word) : State :=
  let s := if d.toM then s.memWrite s.regA out else s
  let s := if d.toD then s.setD out else s
  if d.toA then s.setA out else s

end Sys2Proof.Machine
end

