-- ==== Sys2Proof/Machine/Instructions.lean ====
section
/-! DEFINITION. The A-instruction, and the generic C-instruction that every C row specialises (41_c_instruction.md). -/

namespace Sys2Proof.Machine

/-- `@value`: A receives the immediate zero-extended; PC moves on (40_a_instruction.md R70). -/
def execAtValue (value : BitVec 15) (s : State) : Host.Outcome State Fault Refusal :=
  .next (s.setA (value.zeroExtend 16)).nextPc

/-- Whether this comp is skipped as a no-op (30_encoding.md R58, 42_alu_comp.md R129). -/
def State.skips (s : State) (c : Comp) : Bool :=
  s.cfg.undocComp == .nop && !c.documented

/-- The state after a C-instruction that is executed (pseudocode R76 of 41_c_instruction.md, from `A0` on). -/
def State.afterC (s : State) (c : Comp) (d : Dest) (j : Jump) : State :=
  let out := alu s.regD (s.yOperand c.y) c.ctl
  (s.writeDest d out).finishJump s.regA j out

/-- The C-instruction (pseudocode R76 of 41_c_instruction.md). It is defined for every word and state (R84). -/
def execC (c : Comp) (d : Dest) (j : Jump) (s : State) : Host.Outcome State Fault Refusal :=
  if s.skips c then .next s.nextPc else .next (s.afterC c d j)

/-- The generic C row (41_c_instruction.md R76). -/
def execCGeneric (c : Comp) (d : Dest) (j : Jump) (s : State) : Host.Outcome State Fault Refusal :=
  execC c d j s

end Sys2Proof.Machine
end

