-- ==== Sys2Proof/Machine/CompFamily.lean ====
section
/-! DEFINITION. The 28 documented comp rows, with any destination and any jump (42_alu_comp.md R100 to R127). Each fixes the pair
(a, cccccc) of the generic C-instruction; what function of D and A or M that is, is stated and proved apart. -/

namespace Sys2Proof.Machine

/-- comp `0` (R100) -/
def execComp0 (d : Dest) (j : Jump) (s : State) : Host.Outcome State Fault Refusal :=
  execC CompRow.zero.comp d j s

/-- comp `1` (R101) -/
def execComp1 (d : Dest) (j : Jump) (s : State) : Host.Outcome State Fault Refusal :=
  execC CompRow.one.comp d j s

/-- comp `-1` (R102) -/
def execCompNeg1 (d : Dest) (j : Jump) (s : State) : Host.Outcome State Fault Refusal :=
  execC CompRow.negOne.comp d j s

/-- comp `D` (R103) -/
def execCompD (d : Dest) (j : Jump) (s : State) : Host.Outcome State Fault Refusal :=
  execC CompRow.d.comp d j s

/-- comp `A` (R104) -/
def execCompA (d : Dest) (j : Jump) (s : State) : Host.Outcome State Fault Refusal :=
  execC CompRow.a.comp d j s

/-- comp `!D` (R105) -/
def execCompNotD (d : Dest) (j : Jump) (s : State) : Host.Outcome State Fault Refusal :=
  execC CompRow.notD.comp d j s

/-- comp `!A` (R106) -/
def execCompNotA (d : Dest) (j : Jump) (s : State) : Host.Outcome State Fault Refusal :=
  execC CompRow.notA.comp d j s

/-- comp `-D` (R107) -/
def execCompNegD (d : Dest) (j : Jump) (s : State) : Host.Outcome State Fault Refusal :=
  execC CompRow.negD.comp d j s

/-- comp `-A` (R108) -/
def execCompNegA (d : Dest) (j : Jump) (s : State) : Host.Outcome State Fault Refusal :=
  execC CompRow.negA.comp d j s

/-- comp `D+1` (R109) -/
def execCompDPlus1 (d : Dest) (j : Jump) (s : State) : Host.Outcome State Fault Refusal :=
  execC CompRow.dPlus1.comp d j s

/-- comp `A+1` (R110) -/
def execCompAPlus1 (d : Dest) (j : Jump) (s : State) : Host.Outcome State Fault Refusal :=
  execC CompRow.aPlus1.comp d j s

/-- comp `D-1` (R111) -/
def execCompDMinus1 (d : Dest) (j : Jump) (s : State) : Host.Outcome State Fault Refusal :=
  execC CompRow.dMinus1.comp d j s

/-- comp `A-1` (R112) -/
def execCompAMinus1 (d : Dest) (j : Jump) (s : State) : Host.Outcome State Fault Refusal :=
  execC CompRow.aMinus1.comp d j s

/-- comp `D+A` (R113) -/
def execCompDPlusA (d : Dest) (j : Jump) (s : State) : Host.Outcome State Fault Refusal :=
  execC CompRow.dPlusA.comp d j s

/-- comp `D-A` (R114) -/
def execCompDMinusA (d : Dest) (j : Jump) (s : State) : Host.Outcome State Fault Refusal :=
  execC CompRow.dMinusA.comp d j s

/-- comp `A-D` (R115) -/
def execCompAMinusD (d : Dest) (j : Jump) (s : State) : Host.Outcome State Fault Refusal :=
  execC CompRow.aMinusD.comp d j s

/-- comp `D&A` (R116) -/
def execCompDAndA (d : Dest) (j : Jump) (s : State) : Host.Outcome State Fault Refusal :=
  execC CompRow.dAndA.comp d j s

/-- comp `D|A` (R117) -/
def execCompDOrA (d : Dest) (j : Jump) (s : State) : Host.Outcome State Fault Refusal :=
  execC CompRow.dOrA.comp d j s

/-- comp `M` (R118) -/
def execCompM (d : Dest) (j : Jump) (s : State) : Host.Outcome State Fault Refusal :=
  execC CompRow.m.comp d j s

/-- comp `!M` (R119) -/
def execCompNotM (d : Dest) (j : Jump) (s : State) : Host.Outcome State Fault Refusal :=
  execC CompRow.notM.comp d j s

/-- comp `-M` (R120) -/
def execCompNegM (d : Dest) (j : Jump) (s : State) : Host.Outcome State Fault Refusal :=
  execC CompRow.negM.comp d j s

/-- comp `M+1` (R121) -/
def execCompMPlus1 (d : Dest) (j : Jump) (s : State) : Host.Outcome State Fault Refusal :=
  execC CompRow.mPlus1.comp d j s

/-- comp `M-1` (R122) -/
def execCompMMinus1 (d : Dest) (j : Jump) (s : State) : Host.Outcome State Fault Refusal :=
  execC CompRow.mMinus1.comp d j s

/-- comp `D+M` (R123) -/
def execCompDPlusM (d : Dest) (j : Jump) (s : State) : Host.Outcome State Fault Refusal :=
  execC CompRow.dPlusM.comp d j s

/-- comp `D-M` (R124) -/
def execCompDMinusM (d : Dest) (j : Jump) (s : State) : Host.Outcome State Fault Refusal :=
  execC CompRow.dMinusM.comp d j s

/-- comp `M-D` (R125) -/
def execCompMMinusD (d : Dest) (j : Jump) (s : State) : Host.Outcome State Fault Refusal :=
  execC CompRow.mMinusD.comp d j s

/-- comp `D&M` (R126) -/
def execCompDAndM (d : Dest) (j : Jump) (s : State) : Host.Outcome State Fault Refusal :=
  execC CompRow.dAndM.comp d j s

/-- comp `D|M` (R127) -/
def execCompDOrM (d : Dest) (j : Jump) (s : State) : Host.Outcome State Fault Refusal :=
  execC CompRow.dOrM.comp d j s

end Sys2Proof.Machine
end

