-- ==== Sys2Proof/Machine/DestFamily.lean ====
section
/-! DEFINITION. The 8 dest rows, with any comp and any jump (43_dest.md R131 to R138). -/

namespace Sys2Proof.Machine

/-- `ddd` = 000, nothing written (R131) -/
def execDestNull (c : Comp) (j : Jump) (s : State) : Host.Outcome State Fault Refusal :=
  execC c Dest.none j s

/-- dest `M` (R132) -/
def execDestM (c : Comp) (j : Jump) (s : State) : Host.Outcome State Fault Refusal :=
  execC c Dest.M j s

/-- dest `D` (R133) -/
def execDestD (c : Comp) (j : Jump) (s : State) : Host.Outcome State Fault Refusal :=
  execC c Dest.D j s

/-- dest `MD` (R134) -/
def execDestMD (c : Comp) (j : Jump) (s : State) : Host.Outcome State Fault Refusal :=
  execC c Dest.MD j s

/-- dest `A` (R135) -/
def execDestA (c : Comp) (j : Jump) (s : State) : Host.Outcome State Fault Refusal :=
  execC c Dest.A j s

/-- dest `AM` (R136) -/
def execDestAM (c : Comp) (j : Jump) (s : State) : Host.Outcome State Fault Refusal :=
  execC c Dest.AM j s

/-- dest `AD` (R137) -/
def execDestAD (c : Comp) (j : Jump) (s : State) : Host.Outcome State Fault Refusal :=
  execC c Dest.AD j s

/-- dest `AMD` (R138) -/
def execDestAMD (c : Comp) (j : Jump) (s : State) : Host.Outcome State Fault Refusal :=
  execC c Dest.AMD j s

end Sys2Proof.Machine
end

