-- ==== Sys2Proof/Machine/JumpFamily.lean ====
section
/-! DEFINITION. The 8 jump rows, with any comp and any destination (44_jump.md R141 to R148). -/

namespace Sys2Proof.Machine

/-- `jjj` = 000, never taken (R141) -/
def execJumpNull (c : Comp) (d : Dest) (s : State) : Host.Outcome State Fault Refusal :=
  execC c d Jump.none s

/-- jump `JGT` (R142) -/
def execJumpJGT (c : Comp) (d : Dest) (s : State) : Host.Outcome State Fault Refusal :=
  execC c d Jump.JGT s

/-- jump `JEQ` (R143) -/
def execJumpJEQ (c : Comp) (d : Dest) (s : State) : Host.Outcome State Fault Refusal :=
  execC c d Jump.JEQ s

/-- jump `JGE` (R144) -/
def execJumpJGE (c : Comp) (d : Dest) (s : State) : Host.Outcome State Fault Refusal :=
  execC c d Jump.JGE s

/-- jump `JLT` (R145) -/
def execJumpJLT (c : Comp) (d : Dest) (s : State) : Host.Outcome State Fault Refusal :=
  execC c d Jump.JLT s

/-- jump `JNE` (R146) -/
def execJumpJNE (c : Comp) (d : Dest) (s : State) : Host.Outcome State Fault Refusal :=
  execC c d Jump.JNE s

/-- jump `JLE` (R147) -/
def execJumpJLE (c : Comp) (d : Dest) (s : State) : Host.Outcome State Fault Refusal :=
  execC c d Jump.JLE s

/-- jump `JMP` (R148) -/
def execJumpJMP (c : Comp) (d : Dest) (s : State) : Host.Outcome State Fault Refusal :=
  execC c d Jump.JMP s

end Sys2Proof.Machine
end

