-- ==== Sys2Proof/Machine/Dispatch.lean ====
section
/-! DEFINITION. The dispatch: one arm per constructor of `Instr`, each one call of its meaning. Bits 14..13 of a C
word are not examined (30_encoding.md R53), so no meaning takes them. -/

namespace Sys2Proof.Machine

def exec (i : Instr) (s : State) : Host.Outcome State Fault Refusal :=
  match i with
  | .atValue value => Sys2Proof.Machine.execAtValue value s
  | .cGeneric _ c d j => Sys2Proof.Machine.execCGeneric c d j s
  | .comp0 _ d j => Sys2Proof.Machine.execComp0 d j s
  | .comp1 _ d j => Sys2Proof.Machine.execComp1 d j s
  | .compNeg1 _ d j => Sys2Proof.Machine.execCompNeg1 d j s
  | .compD _ d j => Sys2Proof.Machine.execCompD d j s
  | .compA _ d j => Sys2Proof.Machine.execCompA d j s
  | .compNotD _ d j => Sys2Proof.Machine.execCompNotD d j s
  | .compNotA _ d j => Sys2Proof.Machine.execCompNotA d j s
  | .compNegD _ d j => Sys2Proof.Machine.execCompNegD d j s
  | .compNegA _ d j => Sys2Proof.Machine.execCompNegA d j s
  | .compDPlus1 _ d j => Sys2Proof.Machine.execCompDPlus1 d j s
  | .compAPlus1 _ d j => Sys2Proof.Machine.execCompAPlus1 d j s
  | .compDMinus1 _ d j => Sys2Proof.Machine.execCompDMinus1 d j s
  | .compAMinus1 _ d j => Sys2Proof.Machine.execCompAMinus1 d j s
  | .compDPlusA _ d j => Sys2Proof.Machine.execCompDPlusA d j s
  | .compDMinusA _ d j => Sys2Proof.Machine.execCompDMinusA d j s
  | .compAMinusD _ d j => Sys2Proof.Machine.execCompAMinusD d j s
  | .compDAndA _ d j => Sys2Proof.Machine.execCompDAndA d j s
  | .compDOrA _ d j => Sys2Proof.Machine.execCompDOrA d j s
  | .compM _ d j => Sys2Proof.Machine.execCompM d j s
  | .compNotM _ d j => Sys2Proof.Machine.execCompNotM d j s
  | .compNegM _ d j => Sys2Proof.Machine.execCompNegM d j s
  | .compMPlus1 _ d j => Sys2Proof.Machine.execCompMPlus1 d j s
  | .compMMinus1 _ d j => Sys2Proof.Machine.execCompMMinus1 d j s
  | .compDPlusM _ d j => Sys2Proof.Machine.execCompDPlusM d j s
  | .compDMinusM _ d j => Sys2Proof.Machine.execCompDMinusM d j s
  | .compMMinusD _ d j => Sys2Proof.Machine.execCompMMinusD d j s
  | .compDAndM _ d j => Sys2Proof.Machine.execCompDAndM d j s
  | .compDOrM _ d j => Sys2Proof.Machine.execCompDOrM d j s
  | .destNull _ c j => Sys2Proof.Machine.execDestNull c j s
  | .destM _ c j => Sys2Proof.Machine.execDestM c j s
  | .destD _ c j => Sys2Proof.Machine.execDestD c j s
  | .destMD _ c j => Sys2Proof.Machine.execDestMD c j s
  | .destA _ c j => Sys2Proof.Machine.execDestA c j s
  | .destAM _ c j => Sys2Proof.Machine.execDestAM c j s
  | .destAD _ c j => Sys2Proof.Machine.execDestAD c j s
  | .destAMD _ c j => Sys2Proof.Machine.execDestAMD c j s
  | .jumpNull _ c d => Sys2Proof.Machine.execJumpNull c d s
  | .jumpJGT _ c d => Sys2Proof.Machine.execJumpJGT c d s
  | .jumpJEQ _ c d => Sys2Proof.Machine.execJumpJEQ c d s
  | .jumpJGE _ c d => Sys2Proof.Machine.execJumpJGE c d s
  | .jumpJLT _ c d => Sys2Proof.Machine.execJumpJLT c d s
  | .jumpJNE _ c d => Sys2Proof.Machine.execJumpJNE c d s
  | .jumpJLE _ c d => Sys2Proof.Machine.execJumpJLE c d s
  | .jumpJMP _ c d => Sys2Proof.Machine.execJumpJMP c d s

end Sys2Proof.Machine
end

