-- ==== Sys2Proof/Machine/Step.lean ====
section
/-! DEFINITION. One step of the CPU (41_c_instruction.md R75), and the placing of one instruction where the next step
fetches it. -/

namespace Sys2Proof.Machine

/-- Fetch, decode, execute. From `u(pc) >= rom_len` there is no step: the machine is stuck (10_state.md R17). -/
def step (s : State) : Host.Outcome State Fault Refusal :=
  match s.fetch with
  | some w => exec (decode w) s
  | none => .fault .stuck

/-- `s` with the word `w` at ROM index `pc`; ROM cells between its end and `pc` are filled with zero words, which the
step does not look at (log entry 7). -/
def State.withFetchWord (s : State) (nbits w : Nat) : State :=
  { s with
    rom := s.rom.take s.pc.toNat ++ List.replicate (s.pc.toNat - s.rom.length) 0#16 ++
      BitVec.ofNat 16 (w % 2 ^ nbits) :: s.rom.drop (s.pc.toNat + 1) }

end Sys2Proof.Machine
end

