-- ==== Sys2Proof/Machine/HaltLoop.lean ====
section
/-! DEFINITION. The halt loop, the shape by which a program ends (70_reset_and_hazards.md R206). It is a property of a
state, not a state of the CPU, which keeps stepping. -/

namespace Sys2Proof.Machine

/-- Condition (2) of R206: an unconditional jump without destination, its comp documented. -/
def isHaltJump (w : Word) : Bool :=
  let f := CFields.ofWord w
  w.getLsbD 15 && f.jump == .JMP && f.dest == .none && f.comp.documented

/-- R206 for one index `L`: `ROM[L]` is `@L`, `ROM[L+1]` is a halt jump, and the machine is at `L`, or at `L+1` with
`A = L`. -/
def State.haltLoopAt (s : State) (l : Nat) : Bool :=
  match s.rom[l]?, s.rom[l + 1]? with
  | some w, some v =>
    decide (l ≤ 32767) && w == BitVec.ofNat 16 l && isHaltJump v &&
      (s.pc.toNat == l || (s.pc.toNat == l + 1 && s.regA == BitVec.ofNat 16 l))
  | _, _ => false

/-- `HaltLoop(s)` (70_reset_and_hazards.md R206). By condition (3) the index can only be `pc` or `pc - 1`. -/
def State.haltLoop (s : State) : Bool :=
  s.haltLoopAt s.pc.toNat || s.haltLoopAt (s.pc.toNat - 1)

end Sys2Proof.Machine
end

