-- ==== Sys2Proof/Machine/HostOps.lean ====
section
/-! DEFINITION. The operations of the machine's second agent, the host (47_host_operations.md R160): `new`,
`load_rom`, `step`, `set_keyboard` and the read-only views. The host acts only between CPU steps (20_memory.md R43,
R44), so each is a function on whole states and none is part of `step` (log entry 8). Texts are lists of characters. -/

namespace Sys2Proof.Machine

/-! ### load_rom -/

/-- Why `load_rom` rejects a text, before any state changes (47_host_operations.md R162). -/
inductive LoadError where
  /-- A line that is not 16 characters `0` or `1`; lines are numbered from 0. -/
  | malformedRomLine (line : Nat)
  /-- More than 32768 lines. -/
  | romOverflow
  deriving DecidableEq, Repr

/-- The pieces of a text between its newlines. -/
def splitLines : List Char → List (List Char)
  | [] => [[]]
  | c :: t =>
    if c = '\n' then [] :: splitLines t
    else
      match splitLines t with
      | [] => [[c]]
      | l :: ls => (c :: l) :: ls

/-- The lines of a `.hack` text: the empty text has none, and one final newline ends the last line
(47_host_operations.md R161; log entry 10). -/
def romLines (text : List Char) : List (List Char) :=
  if text = [] then []
  else
    let ls := splitLines text
    if ls.getLast? = some [] then ls.dropLast else ls

/-- The number a list of `0` and `1` characters writes, the first its highest bit, on top of `acc`. -/
def parseBits : Nat → List Char → Option Nat
  | acc, [] => some acc
  | acc, c :: t =>
    if c = '0' then parseBits (2 * acc) t
    else if c = '1' then parseBits (2 * acc + 1) t
    else none

/-- A `.hack` line: exactly 16 characters, the first is bit 15 (47_host_operations.md R161). -/
def parseRomLine (l : List Char) : Option Word :=
  if l.length = 16 then (parseBits 0 l).map (BitVec.ofNat 16) else none

/-- The words of the lines, the first of which has number `n`. -/
def parseRomLines : Nat → List (List Char) → Except LoadError (List Word)
  | _, [] => .ok []
  | n, l :: ls =>
    match parseRomLine l with
    | none => .error (.malformedRomLine n)
    | some w =>
      match parseRomLines (n + 1) ls with
      | .error e => .error e
      | .ok ws => .ok (w :: ws)

/-- The ROM words of a `.hack` text, or why it is rejected (47_host_operations.md R161, R162). -/
def parseRom (text : List Char) : Except LoadError (List Word) :=
  match parseRomLines 0 (romLines text) with
  | .error e => .error e
  | .ok ws => if ws.length ≤ romMax then .ok ws else .error .romOverflow

/-- `load_rom(text)`: the machine's one reset, or a rejection that yields no state (47_host_operations.md R162,
R163). -/
def loadRom (cfg : Config) (text : List Char) : Except LoadError State :=
  match parseRom text with
  | .error e => .error e
  | .ok ws => .ok (State.launch cfg ws)

/-- The `.hack` line of a word: bit 15 first (47_host_operations.md R161). -/
def romLine (w : Word) : List Char :=
  (List.range 16).map fun i => if w.getLsbD (15 - i) then '1' else '0'

/-- A `.hack` text of these words, each line ended by a newline (47_host_operations.md R161). -/
def romText : List Word → List Char
  | [] => []
  | w :: ws => romLine w ++ '\n' :: romText ws

/-! ### step(n) -/

/-- `step(n)`: the CPU step until `n` are done or the state is stuck, which it leaves as it is
(47_host_operations.md R164). This is HALT_DETECT = off. -/
def stepN : Nat → State → State
  | 0, s => s
  | n + 1, s =>
    match step s with
    | .next t => stepN n t
    | .fault _ => s
    | .refused _ => s

/-- The states `step(n)` may return in: the one after the `n` steps, and, under HALT_DETECT = on, also the one after
fewer if it is a `HaltLoop` state (47_host_operations.md R166; log entry 9). -/
def stepMayReturn (n : Nat) (s t : State) : Prop :=
  t = stepN n s ∨ (s.cfg.haltDetect = .on ∧ ∃ k, k ≤ n ∧ t = stepN k s ∧ t.haltLoop = true)

/-! ### set_keyboard -/

/-- `set_keyboard(code)`: `RAM[24576] <- code mod 65536` and nothing else (47_host_operations.md R167). -/
def setKeyboard (code : Int) (s : State) : State :=
  { s with ram := s.ram.write keyboardCell (BitVec.ofInt 16 code) }

/-! ### Views -/

/-- What `cpu_state()` returns (47_host_operations.md R168). -/
structure CpuView where
  a  : Word
  d  : Word
  m  : Word
  pc : Word
  deriving DecidableEq, Repr

/-- `cpu_state()`; `m` is read with the mask of an instruction's M read (47_host_operations.md R168). -/
def State.cpuView (s : State) : CpuView :=
  { a := s.regA, d := s.regD, m := s.memRead s.regA, pc := s.pc }

/-- Cell `i` of the `memory` view, for `i` in 0..32767 (47_host_operations.md R169). -/
def State.memoryView (s : State) (i : Fin ramWords) : Word :=
  s.ram.read i.val

/-- A pixel of the screen image (20_memory.md R36). -/
inductive Pixel where
  | green
  | black
  deriving DecidableEq, Repr

/-- The pixel at column `x`, row `y` of the 512 by 256 image: bit `b` of screen word `w` is the pixel with
`y*512 + x = w*16 + b` (20_memory.md R36). -/
def State.pixel (s : State) (x y : Nat) : Pixel :=
  let k := y * 512 + x
  if (s.ram.read (screenBase + k / 16)).getLsbD (k % 16) then .green else .black

/-- `screen_image_data()`: the rows of the image from the top (47_host_operations.md R169; log entry 15). -/
def State.screenImage (s : State) : List (List Pixel) :=
  (List.range 256).map fun y => (List.range 512).map fun x => s.pixel x y

/-! ### The machine as the host sees it -/

/-- What `new()` makes has no state until the first accepted `load_rom` (10_state.md R23, 47_host_operations.md R170;
log entry 11). -/
inductive HostMachine where
  | unlaunched (cfg : Config)
  | running (s : State)
  deriving DecidableEq, Repr

/-- The host operations that change machine state (47_host_operations.md R160). -/
inductive HostAction where
  | loadRom (text : List Char)
  | step (n : Nat)
  | setKeyboard (code : Int)
  deriving DecidableEq, Repr

/-- `new()` (47_host_operations.md R170) -/
def HostMachine.new (cfg : Config) : HostMachine :=
  .unlaunched cfg

def HostMachine.config : HostMachine → Config
  | .unlaunched cfg => cfg
  | .running s => s.cfg

/-- One host operation. A rejected `load_rom` changes nothing (47_host_operations.md R162); before the first accepted
one, `step` and `set_keyboard` find no state to act on. `step(n)` is taken as HALT_DETECT = off. -/
def HostMachine.act (m : HostMachine) (op : HostAction) : HostMachine :=
  match op, m with
  | .loadRom text, m =>
    match loadRom m.config text with
    | .ok s => .running s
    | .error _ => m
  | .step n, .running s => .running (stepN n s)
  | .setKeyboard code, .running s => .running (setKeyboard code s)
  | .step _, .unlaunched cfg => .unlaunched cfg
  | .setKeyboard _, .unlaunched cfg => .unlaunched cfg

/-- A session of the host: its operations one after the other, the first first. -/
def HostMachine.session (m : HostMachine) (ops : List HostAction) : HostMachine :=
  ops.foldl HostMachine.act m

end Sys2Proof.Machine
end

