-- ==== Sys2Proof/Machine/Assembly.lean ====
section
/-! DEFINITION. The assembly notation (30_encoding.md R61 to R67) and its inverse (R69). It fixes what a source line
means as words; no CPU rule depends on it. Texts are lists of characters (log entry 14). -/

namespace Sys2Proof.Machine

/-! ### Mnemonics -/

/-- The mnemonic of a documented comp (30_encoding.md table R55). -/
def compText : CompRow → List Char
  | .zero     => ['0']
  | .one      => ['1']
  | .negOne   => ['-', '1']
  | .d        => ['D']
  | .a        => ['A']
  | .notD     => ['!', 'D']
  | .notA     => ['!', 'A']
  | .negD     => ['-', 'D']
  | .negA     => ['-', 'A']
  | .dPlus1   => ['D', '+', '1']
  | .aPlus1   => ['A', '+', '1']
  | .dMinus1  => ['D', '-', '1']
  | .aMinus1  => ['A', '-', '1']
  | .dPlusA   => ['D', '+', 'A']
  | .dMinusA  => ['D', '-', 'A']
  | .aMinusD  => ['A', '-', 'D']
  | .dAndA    => ['D', '&', 'A']
  | .dOrA     => ['D', '|', 'A']
  | .m        => ['M']
  | .notM     => ['!', 'M']
  | .negM     => ['-', 'M']
  | .mPlus1   => ['M', '+', '1']
  | .mMinus1  => ['M', '-', '1']
  | .dPlusM   => ['D', '+', 'M']
  | .dMinusM  => ['D', '-', 'M']
  | .mMinusD  => ['M', '-', 'D']
  | .dAndM    => ['D', '&', 'M']
  | .dOrM     => ['D', '|', 'M']

/-- The mnemonics of the seven non-null destinations (30_encoding.md table R56). -/
def destTexts : List (List Char × Dest) :=
  [(['M'], .M), (['D'], .D), (['M', 'D'], .MD), (['A'], .A),
   (['A', 'M'], .AM), (['A', 'D'], .AD), (['A', 'M', 'D'], .AMD)]

/-- The mnemonics of the seven non-null jumps (30_encoding.md table R57). -/
def jumpTexts : List (List Char × Jump) :=
  [(['J', 'G', 'T'], .JGT), (['J', 'E', 'Q'], .JEQ), (['J', 'G', 'E'], .JGE),
   (['J', 'L', 'T'], .JLT), (['J', 'N', 'E'], .JNE), (['J', 'L', 'E'], .JLE), (['J', 'M', 'P'], .JMP)]

/-! ### Lines -/

/-- Why a text is rejected, with the source line at fault (30_encoding.md R67); lines are numbered from 0 (log
entry 14). -/
inductive AsmError where
  | unknownMnemonic (line : Nat)
  | duplicateSymbol (line : Nat)
  | malformedSyntax (line : Nat)
  /-- The line is that of the first word that does not fit, the 32769th (DESIGN CHOICE, log entry 17). -/
  | romOverflow (line : Nat)
  deriving DecidableEq, Repr

/-- A meaningful line (30_encoding.md R61). -/
inductive AsmLine where
  | label (name : List Char)
  | literal (n : Nat)
  | symbol (name : List Char)
  | instr (w : Word)
  deriving DecidableEq, Repr

/-- A line without its `//` comment (30_encoding.md R61). -/
def cutComment : List Char → List Char
  | [] => []
  | '/' :: '/' :: _ => []
  | c :: t => c :: cutComment t

def isBlank (c : Char) : Bool :=
  c == ' ' || c == '\t' || c == '\r'

/-- A line without comment and whitespace (30_encoding.md R61). -/
def stripLine (l : List Char) : List Char :=
  (cutComment l).filter fun c => !isBlank c

/-- The text before and after the first `c`, if there is one. -/
def splitAtChar (c : Char) : List Char → Option (List Char × List Char)
  | [] => none
  | x :: t => if x = c then some ([], t) else (splitAtChar c t).map fun p => (x :: p.1, p.2)

/-- The number a list of decimal digits writes, on top of `acc`. -/
def parseDecimal : Nat → List Char → Option Nat
  | acc, [] => some acc
  | acc, c :: t => if c.isDigit then parseDecimal (10 * acc + (c.toNat - 48)) t else none

/-- Whether a text may be a symbol: not empty, and not beginning with a digit (log entry 14). -/
def isSymbol : List Char → Bool
  | [] => false
  | c :: _ => !c.isDigit

/-- The row of table R55 with this mnemonic. -/
def compOfText (t : List Char) : Option CompRow :=
  CompRow.all.find? fun r => compText r == t

def destOfText (t : List Char) : Option Dest :=
  (destTexts.find? fun p => p.1 == t).map Prod.snd

def jumpOfText (t : List Char) : Option Jump :=
  (jumpTexts.find? fun p => p.1 == t).map Prod.snd

/-- `[DEST=]COMP[;JUMP]`; an omitted part encodes 000, bits 14..13 are 11 (30_encoding.md R63). `none` is an unknown
mnemonic. The text before the first `=` is the destination, that after the first `;` of the rest is the jump; a part
that is empty, or has a further `=` or `;` in it, is no mnemonic of the tables, so that `D=`, `=D`, `D;` and `A=D=M`
are unknown mnemonics too (DESIGN CHOICE, log entry 14). -/
def parseC (t : List Char) : Option Word :=
  let (dest, rest) :=
    match splitAtChar '=' t with
    | some (d, r) => (destOfText d, r)
    | none => (some .none, t)
  let (comp, jump) :=
    match splitAtChar ';' rest with
    | some (c, j) => (compOfText c, jumpOfText j)
    | none => (compOfText rest, some .none)
  match dest, comp, jump with
  | some d, some c, some j => some (CFields.toWord ⟨3#2, c.comp, d, j⟩)
  | _, _, _ => none

/-- One stripped, non-empty line (30_encoding.md R61 to R63). R67 does not say which faults are malformed syntax: here
they are a label line that is not `(NAME)` and an `@` whose text is neither a symbol nor a decimal number; every fault
of any other line, a C line with an empty part among them, is an unknown mnemonic (DESIGN CHOICE, log entry 14). A
number above 32767 is malformed by R62. -/
def parseAsmLine (n : Nat) : List Char → Except AsmError AsmLine
  | '(' :: t =>
    match splitAtChar ')' t with
    | some (name, []) => if isSymbol name then .ok (.label name) else .error (.malformedSyntax n)
    | _ => .error (.malformedSyntax n)
  | '@' :: t =>
    if isSymbol t then .ok (.symbol t)
    else if t = [] then .error (.malformedSyntax n)
    else
      match parseDecimal 0 t with
      | some v => if v ≤ 32767 then .ok (.literal v) else .error (.malformedSyntax n)
      | none => .error (.malformedSyntax n)
  | t =>
    match parseC t with
    | some w => .ok (.instr w)
    | none => .error (.unknownMnemonic n)

/-- The meaningful lines of a text, each with its number; lines empty after stripping are ignored (30_encoding.md
R61). -/
def parseAsmLines : Nat → List (List Char) → Except AsmError (List (Nat × AsmLine))
  | _, [] => .ok []
  | n, l :: ls =>
    if stripLine l = [] then parseAsmLines (n + 1) ls
    else
      match parseAsmLine n (stripLine l) with
      | .error e => .error e
      | .ok x =>
        match parseAsmLines (n + 1) ls with
        | .error e => .error e
        | .ok xs => .ok ((n, x) :: xs)

/-! ### Symbols -/

abbrev SymbolTable := List (List Char × Nat)

/-- The predefined symbols (30_encoding.md R64). -/
def predefined : SymbolTable :=
  [(['R', '0'], 0), (['R', '1'], 1), (['R', '2'], 2), (['R', '3'], 3),
   (['R', '4'], 4), (['R', '5'], 5), (['R', '6'], 6), (['R', '7'], 7),
   (['R', '8'], 8), (['R', '9'], 9), (['R', '1', '0'], 10), (['R', '1', '1'], 11),
   (['R', '1', '2'], 12), (['R', '1', '3'], 13), (['R', '1', '4'], 14), (['R', '1', '5'], 15),
   (['S', 'P'], 0), (['L', 'C', 'L'], 1), (['A', 'R', 'G'], 2), (['T', 'H', 'I', 'S'], 3), (['T', 'H', 'A', 'T'], 4),
   (['S', 'C', 'R', 'E', 'E', 'N'], 16384), (['K', 'B', 'D'], 24576)]

def SymbolTable.value? (tab : SymbolTable) (name : List Char) : Option Nat :=
  (tab.find? fun p => p.1 == name).map Prod.snd

/-- Pass 1: a label is bound to the index of the next instruction; a second binding is an error (30_encoding.md
R65). -/
def bindLabels : Nat → SymbolTable → List (Nat × AsmLine) → Except AsmError SymbolTable
  | _, tab, [] => .ok tab
  | i, tab, (n, .label name) :: xs =>
    match tab.value? name with
    | some _ => .error (.duplicateSymbol n)
    | none => bindLabels i ((name, i) :: tab) xs
  | i, tab, (_, .literal _) :: xs => bindLabels (i + 1) tab xs
  | i, tab, (_, .symbol _) :: xs => bindLabels (i + 1) tab xs
  | i, tab, (_, .instr _) :: xs => bindLabels (i + 1) tab xs

/-- The word of one instruction line, and the next free RAM cell and the symbols after it: a symbol without a value is a
variable and gets the free cell (30_encoding.md R65). A label has no word. -/
def asmWord (free : Nat) (tab : SymbolTable) (n : Nat) : AsmLine → Except AsmError (Option Word × Nat × SymbolTable)
  | .label _ => .ok (none, free, tab)
  | .literal v => .ok (some (BitVec.ofNat 16 v), free, tab)
  | .instr w => .ok (some w, free, tab)
  | .symbol name =>
    match tab.value? name with
    | some v => if v ≤ 32767 then .ok (some (BitVec.ofNat 16 v), free, tab) else .error (.malformedSyntax n)
    | none =>
      if free ≤ 32767 then .ok (some (BitVec.ofNat 16 free), free + 1, (name, free) :: tab)
      else .error (.malformedSyntax n)

/-- Pass 2: the words of the lines, `i` having been emitted before (30_encoding.md R65). It stops at the first line at
fault, and at the line whose word would be the 32769th (R67; log entry 17). -/
def emitWords : Nat → Nat → SymbolTable → List (Nat × AsmLine) → Except AsmError (List Word)
  | _, _, _, [] => .ok []
  | i, free, tab, (n, x) :: xs =>
    match asmWord free tab n x with
    | .error e => .error e
    | .ok (none, free', tab') => emitWords i free' tab' xs
    | .ok (some w, free', tab') =>
      if i < romMax then
        match emitWords (i + 1) free' tab' xs with
        | .error e => .error e
        | .ok ws => .ok (w :: ws)
      else .error (.romOverflow n)

/-- The ROM words an assembly text means (30_encoding.md R61 to R67). -/
def assemble (text : List Char) : Except AsmError (List Word) :=
  match parseAsmLines 0 (splitLines text) with
  | .error e => .error e
  | .ok xs =>
    match bindLabels 0 predefined xs with
    | .error e => .error e
    | .ok tab => emitWords 0 16 tab xs

/-! ### Disassembly -/

def digitChar (d : Nat) : Char :=
  Char.ofNat (48 + d)

/-- The decimal digits of `n`, for `n < 10 ^ fuel`. -/
def decimalText : Nat → Nat → List Char
  | 0, _ => []
  | fuel + 1, n => (if n < 10 then [] else decimalText fuel (n / 10)) ++ [digitChar (n % 10)]

def destText (d : Dest) : List Char :=
  match destTexts.find? fun p => p.2 == d with
  | some p => p.1 ++ ['=']
  | none => []

def jumpText (j : Jump) : List Char :=
  match jumpTexts.find? fun p => p.2 == j with
  | some p => ';' :: p.1
  | none => []

/-- The one text of an A word or of a documented C word with bits 14..13 = 11 (30_encoding.md R69); other words have
none. -/
def disassemble (w : Word) : Option (List Char) :=
  if w.getLsbD 15 then
    let f := CFields.ofWord w
    if f.unused = 3#2 then
      f.comp.row?.map fun r => destText f.dest ++ compText r ++ jumpText f.jump
    else none
  else some ('@' :: decimalText 5 w.toNat)

end Sys2Proof.Machine
end

