-- ==== Sys2Proof/WellFormed.lean ====
section
/-! DEFINITION. Well-formed instructions. The rows of the opcode table overlap (30_encoding.md R68), so a word can be
written as up to four constructors; an instruction is well formed when its constructor is the one the decoder shows
its word as (log entry 4). `encode` and `exec` are meaningful on every term, well formed or not. -/

namespace Sys2Proof

/-- A comp row shows words that both write and jump, or do neither. -/
def Dest.agreesWith (d : Dest) (j : Jump) : Bool :=
  (d == .none) == (j == .none)

/-- The checks, one arm per constructor. -/
def Instr.wellFormed : Instr → Bool
  | .atValue _ => true
  | .cGeneric _ c d j => !c.documented && d != .none && j != .none
  | .comp0 _ d j => d.agreesWith j
  | .comp1 _ d j => d.agreesWith j
  | .compNeg1 _ d j => d.agreesWith j
  | .compD _ d j => d.agreesWith j
  | .compA _ d j => d.agreesWith j
  | .compNotD _ d j => d.agreesWith j
  | .compNotA _ d j => d.agreesWith j
  | .compNegD _ d j => d.agreesWith j
  | .compNegA _ d j => d.agreesWith j
  | .compDPlus1 _ d j => d.agreesWith j
  | .compAPlus1 _ d j => d.agreesWith j
  | .compDMinus1 _ d j => d.agreesWith j
  | .compAMinus1 _ d j => d.agreesWith j
  | .compDPlusA _ d j => d.agreesWith j
  | .compDMinusA _ d j => d.agreesWith j
  | .compAMinusD _ d j => d.agreesWith j
  | .compDAndA _ d j => d.agreesWith j
  | .compDOrA _ d j => d.agreesWith j
  | .compM _ d j => d.agreesWith j
  | .compNotM _ d j => d.agreesWith j
  | .compNegM _ d j => d.agreesWith j
  | .compMPlus1 _ d j => d.agreesWith j
  | .compMMinus1 _ d j => d.agreesWith j
  | .compDPlusM _ d j => d.agreesWith j
  | .compDMinusM _ d j => d.agreesWith j
  | .compMMinusD _ d j => d.agreesWith j
  | .compDAndM _ d j => d.agreesWith j
  | .compDOrM _ d j => d.agreesWith j
  | .destNull _ c j => !c.documented && c.y == .regA && j == .none
  | .destM _ _ j => j == .none
  | .destD _ _ j => j == .none
  | .destMD _ _ j => j == .none
  | .destA _ _ j => j == .none
  | .destAM _ _ j => j == .none
  | .destAD _ _ j => j == .none
  | .destAMD _ _ j => j == .none
  | .jumpNull _ c d => !c.documented && c.y == .memM && d == .none
  | .jumpJGT _ _ d => d == .none
  | .jumpJEQ _ _ d => d == .none
  | .jumpJGE _ _ d => d == .none
  | .jumpJLT _ _ d => d == .none
  | .jumpJNE _ _ d => d == .none
  | .jumpJLE _ _ d => d == .none
  | .jumpJMP _ _ d => d == .none

end Sys2Proof
end

