-- ==== Sys2Proof/Safety.lean ====
section
/-! DEFINITION. The terms claims are written in: the invariant of the machine's states, stuck, halting and finished
states, and what the spec says a C-instruction does, told field by field of the state it leaves. -/

namespace Sys2Proof.Safety

open Sys2Proof.Machine

/-- What every state that `load_rom`, the host and the CPU can produce satisfies: the RAM is in its canonical form
over addresses 0..32767, and the ROM has at most 32768 words (10_state.md R10, R16). -/
abbrev Inv (s : State) : Prop :=
  s.ram.wf = true ∧ s.rom.length ≤ romMax

/-- The invariant of the machine as the host sees it. -/
def HostInv : HostMachine → Prop
  | .unlaunched _ => True
  | .running s => Inv s

/-- No instruction to fetch (10_state.md R17). -/
abbrev Stuck (s : State) : Prop :=
  s.rom.length ≤ s.pc.toNat

/-- `HaltLoop(s)` as 70_reset_and_hazards.md R206 words it, for the index `l`. -/
structure HaltLoopIndex (s : State) (l : Nat) : Prop where
  inRom : l + 1 < s.rom.length
  small : l ≤ 32767
  load  : s.rom[l]? = some (encode (.atValue (BitVec.ofNat 15 l)))
  jump  : ∃ u r, s.rom[l + 1]? = some (CFields.toWord ⟨u, CompRow.comp r, .none, .JMP⟩)
  here  : s.pc.toNat = l ∨ (s.pc.toNat = l + 1 ∧ s.regA.toNat = l)

/-- The run from `s` ends after `n` steps: the first `HaltLoop` state (70_reset_and_hazards.md R207). -/
def EndsAfter (n : Nat) (s : State) : Prop :=
  (stepN n s).haltLoop = true ∧ ∀ k, k < n → (stepN k s).haltLoop = false

/-- The jump condition on `out` read as a signed number (44_jump.md R150). -/
def Taken (j : Jump) (out : Word) : Prop :=
  (j.neg = true ∧ out.toInt < 0) ∨ (j.zero = true ∧ out.toInt = 0) ∨ (j.pos = true ∧ 0 < out.toInt)

/-- The writes of a C-instruction from `s` to `t`, and its frame: enabled destinations hold `out`, the M destination
being the cell the A of before the instruction names; everything else but PC is as it was (43_dest.md R130,
41_c_instruction.md R78). -/
structure Writes (out : Word) (d : Dest) (s t : State) : Prop where
  regA  : t.regA = if d.toA then out else s.regA
  regD  : t.regD = if d.toD then out else s.regD
  cell  : d.toM = true → t.ram.read (effAddr s.regA) = out
  other : ∀ i, (d.toM = true → i ≠ effAddr s.regA) → t.ram.read i = s.ram.read i
  rom   : t.rom = s.rom
  cfg   : t.cfg = s.cfg

/-- PC after a C-instruction from `s` to `t` (41_c_instruction.md R82): A if the jump is taken, as it is after the
writes or as it was before the instruction (44_jump.md R152), and the next index otherwise. -/
structure Continues (taken : Prop) (s t : State) : Prop where
  post : taken → s.cfg.jumpASample = .post → t.pc = t.regA
  pre  : taken → s.cfg.jumpASample = .pre → t.pc = s.regA
  next : ¬ taken → t.pc = s.pc + 1#16

/-- `exec i s` completes, writes `out` to `d`, and jumps exactly on `taken`. -/
def Does (i : Instr) (s : State) (out : Word) (d : Dest) (taken : Prop) : Prop :=
  ∃ t, exec i s = .next t ∧ Writes out d s t ∧ Continues taken s t

/-- The value a comp gives from `s` by the ALU (42_alu_comp.md R90). -/
def aluOut (c : Comp) (s : State) : Word :=
  alu s.regD (s.yOperand c.y) c.ctl

/-- A comp that is executed under the state's setting of UNDOC_COMP (30_encoding.md R58). -/
def Executed (c : Comp) (s : State) : Prop :=
  c.documented = true ∨ s.cfg.undocComp = .alu

/-- The M operand: the cell A names (10_state.md R13). -/
abbrev cellM (s : State) : Word :=
  s.ram.read (effAddr s.regA)

/-- A meaningful line of an assembly text that produces a word: all but a label (30_encoding.md R61). -/
def hasWord : AsmLine → Bool
  | .label _ => false
  | .literal _ => true
  | .symbol _ => true
  | .instr _ => true

/-- The source line an assembler error names (30_encoding.md R67). -/
def errorLine : AsmError → Nat
  | .unknownMnemonic n => n
  | .duplicateSymbol n => n
  | .malformedSyntax n => n
  | .romOverflow n => n

end Sys2Proof.Safety
end

