-- ==== Sys2Proof/Certificates/Slice0/Obligations.lean ====
section
/-! DEFINITION. The statements for the provers. Each docstring names the rule of the spec it formalises. `Does`,
`Writes`, `Continues`, `Taken`, `HaltLoopIndex` and the invariant are in Safety.lean. -/

open Sys2Proof Sys2Proof.Machine Sys2Proof.Safety

/-- 10_state.md R22: the state after an accepted `load_rom`. The parameters stay as the host has them. -/
def Obligations.LoadRomGivesTheResetState : Prop :=
  ∀ (cfg : Config) (text : List Char) (ws : List Word), parseRom text = .ok ws →
    ∃ t, loadRom cfg text = .ok t ∧ t.pc = 0#16 ∧ t.regA = 0#16 ∧ t.regD = 0#16 ∧
      (∀ i, t.ram.read i = 0x0000#16) ∧ t.rom = ws ∧ t.rom.length ≤ romMax ∧ t.cfg = cfg

/-- The state after reset is the one after loading the empty ROM, legal by 47_host_operations.md R161; that `State.reset`
stands for it is the model's choice (log entry 7). -/
def Obligations.ResetIsLoadRomOfTheEmptyText : Prop :=
  loadRom .specDefault [] = .ok State.reset ∧ Inv State.reset ∧ step State.reset = .fault .stuck

/-- 47_host_operations.md R161: line `i` becomes `ROM[i]`, the first character of a line is bit 15, and one final newline
is optional. -/
def Obligations.LoadRomReadsOneWordALine : Prop :=
  ∀ ws : List Word, ws.length ≤ romMax →
    parseRom (romText ws) = .ok ws ∧ parseRom (romText ws).dropLast = .ok ws

/-- 47_host_operations.md R162, with two choices of the model: of several malformed lines the lowest is reported, also in a
text of more than 32768 lines (log entry 10); a rejected load leaves an unlaunched machine unlaunched (log entry 11). -/
def Obligations.LoadRomRejectsWhatTheRulesReject : Prop :=
  (∀ l : List Char, (parseRomLine l).isSome = true ↔ l.length = 16 ∧ ∀ c ∈ l, c = '0' ∨ c = '1') ∧
  (∀ (text l : List Char) (n : Nat), (romLines text)[n]? = some l → parseRomLine l = none →
    (∀ k x, k < n → (romLines text)[k]? = some x → parseRomLine x ≠ none) →
    parseRom text = .error (.malformedRomLine n)) ∧
  (∀ text : List Char, (∀ x ∈ romLines text, parseRomLine x ≠ none) →
    (romMax < (romLines text).length → parseRom text = .error .romOverflow) ∧
    ((romLines text).length ≤ romMax → ∃ ws, parseRom text = .ok ws ∧ ws.length = (romLines text).length)) ∧
  (∀ (m : HostMachine) (text : List Char) (e : LoadError), loadRom m.config text = .error e →
    m.act (.loadRom text) = m)

/-- 30_encoding.md tables R51, R52, R55 to R57 on words written out bit by bit. As which of the rows that match a word it
is shown is the model's choice (log entry 4). -/
def Obligations.KnownWordsDecode : Prop :=
  decode 0b0111111111111111#16 = .atValue 32767#15 ∧
  decode 0b1110000010010000#16 = .destD 3#2 CompRow.dPlusA.comp .none ∧
  decode 0b1111110010101000#16 = .destAM 3#2 CompRow.mMinus1.comp .none ∧
  decode 0b1110101010000111#16 = .jumpJMP 3#2 CompRow.zero.comp .none ∧
  decode 0b1110001110010001#16 = .compDMinus1 3#2 .D .JGT ∧
  decode 0b1110000001111111#16 = .cGeneric 3#2 ⟨.regA, .ofCode 0b000001#6⟩ .AMD .JMP ∧
  decode 0b1001110000010000#16 = .destD 0#2 CompRow.m.comp .none ∧
  decode 0b1110111111000000#16 = .comp1 3#2 .none .none

/-- No bit of an encoding is dropped: 30_encoding.md R50 to R53, R55 to R57. Well-formedness is the model's choice of the
row a word is shown as (log entry 4). -/
def Obligations.DecodeOfEncodeIsTheInstruction : Prop :=
  ∀ i : Instr, i.wellFormed = true → decode (encode i) = i

/-- 30_encoding.md R50: one length, two formats told apart by bit 15 alone, no illegal word. That the word comes back whole
rests on the constructors carrying bits 14..13 (log entry 16), and `wellFormed` is the decoder's choice of a row (log
entry 4): both are the model's choices. -/
def Obligations.EveryWordIsAWellFormedInstruction : Prop :=
  ∀ w : Word, (decode w).wellFormed = true ∧ encode (decode w) = w ∧
    ((∃ v, decode w = .atValue v) ↔ w.getLsbD 15 = false)

/-- 30_encoding.md R68 lets a word match several rows; the comp, dest and jump rows specialise the generic one and add no
behaviour (41_c_instruction.md, opening). The decoder's choice among them (log entry 4) therefore has no effect. -/
def Obligations.AllRowsOfAWordExecuteAlike : Prop :=
  ∀ (i k : Instr) (s : State), encode i = encode k →
    exec i s = exec k s ∧ exec (decode (encode i)) s = exec i s

/-- 30_encoding.md R53: a C word with bits 14..13 other than 11 executes exactly as the same word with 11 there. -/
def Obligations.UnusedBitsDoNotMatter : Prop :=
  ∀ (w v : Word) (s : State), w.getLsbD 15 = true → v.getLsbD 15 = true → w &&& 0x9FFF#16 = v &&& 0x9FFF#16 →
    exec (decode w) s = exec (decode v) s

/-- 41_c_instruction.md R75, fetch and decode. -/
def Obligations.StepRunsTheDecodedInstruction : Prop :=
  ∀ s : State,
    (∀ i : Instr, i.wellFormed = true → s.rom[s.pc.toNat]? = some (encode i) → step s = exec i s) ∧
    (∀ w : Word, s.rom[s.pc.toNat]? = some w → step s = exec (decode w) s)

/-- 41_c_instruction.md R75, with the field places of 30_encoding.md table R52: nothing but bit 15 chooses the format, and
from `u(pc) >= rom_len` there is no step (10_state.md R17), which the model writes as a fault (its choice, log entry 5). -/
def Obligations.StepReadsTheFieldsOfTheWord : Prop :=
  (∀ (s : State) (w : Word), s.rom[s.pc.toNat]? = some w →
    (w.getLsbD 15 = false → step s = exec (.atValue (w.extractLsb' 0 15)) s) ∧
    (w.getLsbD 15 = true →
      step s = exec (.cGeneric (w.extractLsb' 13 2)
        ⟨if w.getLsbD 12 then .memM else .regA,
          ⟨w.getLsbD 11, w.getLsbD 10, w.getLsbD 9, w.getLsbD 8, w.getLsbD 7, w.getLsbD 6⟩⟩
        ⟨w.getLsbD 5, w.getLsbD 4, w.getLsbD 3⟩ ⟨w.getLsbD 2, w.getLsbD 1, w.getLsbD 0⟩) s)) ∧
  (∀ s : State, s.rom.length ≤ s.pc.toNat → step s = .fault .stuck)

/-- 10_state.md R17 and 41_c_instruction.md R84. That a state without a step answers a fault is the model's form of
"stuck" (log entry 5). -/
def Obligations.StepExistsExactlyInsideTheRom : Prop :=
  ∀ s : State,
    (s.pc.toNat < s.rom.length → ∃ t, step s = .next t) ∧
    (s.rom.length ≤ s.pc.toNat → step s = .fault .stuck ∧ ∀ n, stepN n s = s)

/-- 41_c_instruction.md R84 and 60_exceptions.md R180: no word faults in any state; no instruction writes ROM
(20_memory.md R31). -/
def Obligations.EveryInstructionCompletes : Prop :=
  ∀ (i : Instr) (s : State), ∃ t, exec i s = .next t ∧ (s.ram.wf = true → t.ram.wf = true) ∧
    t.rom = s.rom ∧ t.cfg = s.cfg

/-- 40_a_instruction.md R70, R72. -/
def Obligations.AtValueLoadsA : Prop :=
  ∀ (v : BitVec 15) (s : State),
    exec (.atValue v) s = .next { s with regA := v.setWidth 16, pc := s.pc + 1#16 } ∧
    (v.setWidth 16).getLsbD 15 = false ∧ (v.setWidth 16).toNat = v.toNat ∧ encode (.atValue v) = v.setWidth 16

/-- 41_c_instruction.md pseudocode R76, with R77 (operands) and R78 (which A addresses M). -/
def Obligations.GenericCInstruction : Prop :=
  ∀ (u : BitVec 2) (c : Comp) (d : Dest) (j : Jump) (s : State),
    let y := match c.y with
      | .regA => s.regA
      | .memM => s.ram.read (s.regA.toNat % 32768)
    let out := alu s.regD y c.ctl
    (c.documented = true ∨ s.cfg.undocComp = .alu → Does (.cGeneric u c d j) s out d (Taken j out)) ∧
    (¬ (c.documented = true ∨ s.cfg.undocComp = .alu) →
      exec (.cGeneric u c d j) s = .next { s with pc := s.pc + 1#16 })

/-- 42_alu_comp.md R129. -/
def Obligations.UndocumentedCompIsANoOpUnderNop : Prop :=
  ∀ (u : BitVec 2) (c : Comp) (d : Dest) (j : Jump) (s : State),
    (∀ r : CompRow, r.comp ≠ c) → s.cfg.undocComp = .nop →
    exec (.cGeneric u c d j) s = .next { s with pc := s.pc + 1#16 } ∧
    exec (d.instr u c j) s = .next { s with pc := s.pc + 1#16 } ∧
    exec (j.instr u c d) s = .next { s with pc := s.pc + 1#16 }

/-- 42_alu_comp.md table R128, row by row; the executing of an undocumented code is `GenericCInstruction`. -/
def Obligations.AluTableOfAllControlCodes : Prop :=
  (∀ x y : Word,
    alu x y (.ofCode 0b000000#6) = x &&& y ∧
    alu x y (.ofCode 0b000001#6) = ~~~(x &&& y) ∧
    alu x y (.ofCode 0b000010#6) = x + y ∧
    alu x y (.ofCode 0b000011#6) = ~~~(x + y) ∧
    alu x y (.ofCode 0b000100#6) = x &&& ~~~y ∧
    alu x y (.ofCode 0b000101#6) = ~~~x ||| y ∧
    alu x y (.ofCode 0b000110#6) = x - y - 1#16 ∧
    alu x y (.ofCode 0b000111#6) = y - x ∧
    alu x y (.ofCode 0b001000#6) = 0#16 ∧
    alu x y (.ofCode 0b001001#6) = 0xFFFF#16 ∧
    alu x y (.ofCode 0b001010#6) = x ∧
    alu x y (.ofCode 0b001011#6) = ~~~x ∧
    alu x y (.ofCode 0b001100#6) = x ∧
    alu x y (.ofCode 0b001101#6) = ~~~x ∧
    alu x y (.ofCode 0b001110#6) = x - 1#16 ∧
    alu x y (.ofCode 0b001111#6) = -x ∧
    alu x y (.ofCode 0b010000#6) = ~~~x &&& y ∧
    alu x y (.ofCode 0b010001#6) = x ||| ~~~y ∧
    alu x y (.ofCode 0b010010#6) = y - x - 1#16 ∧
    alu x y (.ofCode 0b010011#6) = x - y ∧
    alu x y (.ofCode 0b010100#6) = ~~~x &&& ~~~y ∧
    alu x y (.ofCode 0b010101#6) = x ||| y ∧
    alu x y (.ofCode 0b010110#6) = -(x + y) - 2#16 ∧
    alu x y (.ofCode 0b010111#6) = x + y + 1#16 ∧
    alu x y (.ofCode 0b011000#6) = 0#16 ∧
    alu x y (.ofCode 0b011001#6) = 0xFFFF#16 ∧
    alu x y (.ofCode 0b011010#6) = ~~~x ∧
    alu x y (.ofCode 0b011011#6) = x ∧
    alu x y (.ofCode 0b011100#6) = ~~~x ∧
    alu x y (.ofCode 0b011101#6) = x ∧
    alu x y (.ofCode 0b011110#6) = ~~~x - 1#16 ∧
    alu x y (.ofCode 0b011111#6) = x + 1#16 ∧
    alu x y (.ofCode 0b100000#6) = 0#16 ∧
    alu x y (.ofCode 0b100001#6) = 0xFFFF#16 ∧
    alu x y (.ofCode 0b100010#6) = y ∧
    alu x y (.ofCode 0b100011#6) = ~~~y ∧
    alu x y (.ofCode 0b100100#6) = 0#16 ∧
    alu x y (.ofCode 0b100101#6) = 0xFFFF#16 ∧
    alu x y (.ofCode 0b100110#6) = ~~~y ∧
    alu x y (.ofCode 0b100111#6) = y ∧
    alu x y (.ofCode 0b101000#6) = 0#16 ∧
    alu x y (.ofCode 0b101001#6) = 0xFFFF#16 ∧
    alu x y (.ofCode 0b101010#6) = 0#16 ∧
    alu x y (.ofCode 0b101011#6) = 0xFFFF#16 ∧
    alu x y (.ofCode 0b101100#6) = 0#16 ∧
    alu x y (.ofCode 0b101101#6) = 0xFFFF#16 ∧
    alu x y (.ofCode 0b101110#6) = 0xFFFF#16 ∧
    alu x y (.ofCode 0b101111#6) = 0#16 ∧
    alu x y (.ofCode 0b110000#6) = y ∧
    alu x y (.ofCode 0b110001#6) = ~~~y ∧
    alu x y (.ofCode 0b110010#6) = y - 1#16 ∧
    alu x y (.ofCode 0b110011#6) = -y ∧
    alu x y (.ofCode 0b110100#6) = ~~~y ∧
    alu x y (.ofCode 0b110101#6) = y ∧
    alu x y (.ofCode 0b110110#6) = ~~~y - 1#16 ∧
    alu x y (.ofCode 0b110111#6) = y + 1#16 ∧
    alu x y (.ofCode 0b111000#6) = 0#16 ∧
    alu x y (.ofCode 0b111001#6) = 0xFFFF#16 ∧
    alu x y (.ofCode 0b111010#6) = 0xFFFF#16 ∧
    alu x y (.ofCode 0b111011#6) = 0#16 ∧
    alu x y (.ofCode 0b111100#6) = 0xFFFF#16 ∧
    alu x y (.ofCode 0b111101#6) = 0#16 ∧
    alu x y (.ofCode 0b111110#6) = 0xFFFE#16 ∧
    alu x y (.ofCode 0b111111#6) = 1#16 ∧
    alu x y (.ofCode 0b000011#6) = -(x + y) - 1#16 ∧
    alu x y (.ofCode 0b010100#6) = ~~~(x ||| y) ∧
    alu x y (.ofCode 0b011110#6) = -x - 2#16 ∧
    alu x y (.ofCode 0b110110#6) = -y - 2#16) ∧
  (((List.range 64).filter fun n => Comp.documented ⟨.regA, .ofCode (.ofNat 6 n)⟩) =
    [0x00, 0x02, 0x07, 0x0C, 0x0D, 0x0E, 0x0F, 0x13, 0x15, 0x1F, 0x2A, 0x30, 0x31, 0x32, 0x33, 0x37, 0x3A, 0x3F]) ∧
  (((List.range 64).filter fun n => Comp.documented ⟨.memM, .ofCode (.ofNat 6 n)⟩) =
    [0x00, 0x02, 0x07, 0x13, 0x15, 0x30, 0x31, 0x32, 0x33, 0x37])

/-- 42_alu_comp.md R93 and 44_jump.md R150. -/
def Obligations.ConditionsOfTheAluOutput : Prop :=
  ∀ out : Word,
    (isNeg out = true ↔ out.toInt < 0) ∧ (isNeg out = true ↔ 0x8000 ≤ out.toNat) ∧
    (isZero out = true ↔ out = 0x0000#16) ∧
    (isPos out = true ↔ 0 < out.toInt) ∧ (isPos out = true ↔ 0x0001 ≤ out.toNat ∧ out.toNat ≤ 0x7FFF) ∧
    [isNeg out, isZero out, isPos out].count true = 1 ∧
    ∀ j : Jump, jumpTaken j out =
      ((j.neg && decide (out.toInt < 0)) || (j.zero && decide (out.toInt = 0)) || (j.pos && decide (0 < out.toInt)))

/-- 42_alu_comp.md R100 to R102. -/
def Obligations.ConstantComps : Prop :=
  (∀ (u : BitVec 2) (d : Dest) (j : Jump) (s : State),
    (let out := 0x0000#16
     Does (.comp0 u d j) s out d (Taken j out)) ∧
    (let out := 0x0001#16
     Does (.comp1 u d j) s out d (Taken j out)) ∧
    (let out := 0xFFFF#16
     Does (.compNeg1 u d j) s out d (Taken j out))) ∧
  encode (.comp0 3#2 .none .none) = 0xEA80#16 ∧
  encode (.comp1 3#2 .none .none) = 0xEFC0#16 ∧
  encode (.compNeg1 3#2 .none .none) = 0xEE80#16

/-- 42_alu_comp.md R103, R104, R118. -/
def Obligations.CopyComps : Prop :=
  (∀ (u : BitVec 2) (d : Dest) (j : Jump) (s : State),
    (let out := s.regD
     Does (.compD u d j) s out d (Taken j out)) ∧
    (let out := s.regA
     Does (.compA u d j) s out d (Taken j out)) ∧
    (let out := cellM s
     Does (.compM u d j) s out d (Taken j out))) ∧
  encode (.compD 3#2 .none .none) = 0xE300#16 ∧
  encode (.compA 3#2 .none .none) = 0xEC00#16 ∧
  encode (.compM 3#2 .none .none) = 0xFC00#16

/-- 42_alu_comp.md R105, R106, R119. -/
def Obligations.ComplementComps : Prop :=
  (∀ (u : BitVec 2) (d : Dest) (j : Jump) (s : State),
    (let out := ~~~s.regD
     Does (.compNotD u d j) s out d (Taken j out)) ∧
    (let out := ~~~s.regA
     Does (.compNotA u d j) s out d (Taken j out)) ∧
    (let out := ~~~(cellM s)
     Does (.compNotM u d j) s out d (Taken j out))) ∧
  encode (.compNotD 3#2 .none .none) = 0xE340#16 ∧
  encode (.compNotA 3#2 .none .none) = 0xEC40#16 ∧
  encode (.compNotM 3#2 .none .none) = 0xFC40#16

/-- 42_alu_comp.md R107, R108, R120. -/
def Obligations.NegationComps : Prop :=
  (∀ (u : BitVec 2) (d : Dest) (j : Jump) (s : State),
    (let out := -s.regD
     Does (.compNegD u d j) s out d (Taken j out)) ∧
    (let out := -s.regA
     Does (.compNegA u d j) s out d (Taken j out)) ∧
    (let out := -(cellM s)
     Does (.compNegM u d j) s out d (Taken j out))) ∧
  encode (.compNegD 3#2 .none .none) = 0xE3C0#16 ∧
  encode (.compNegA 3#2 .none .none) = 0xECC0#16 ∧
  encode (.compNegM 3#2 .none .none) = 0xFCC0#16

/-- 42_alu_comp.md R109, R110, R121. -/
def Obligations.IncrementComps : Prop :=
  (∀ (u : BitVec 2) (d : Dest) (j : Jump) (s : State),
    (let out := s.regD + 1#16
     Does (.compDPlus1 u d j) s out d (Taken j out)) ∧
    (let out := s.regA + 1#16
     Does (.compAPlus1 u d j) s out d (Taken j out)) ∧
    (let out := cellM s + 1#16
     Does (.compMPlus1 u d j) s out d (Taken j out))) ∧
  encode (.compDPlus1 3#2 .none .none) = 0xE7C0#16 ∧
  encode (.compAPlus1 3#2 .none .none) = 0xEDC0#16 ∧
  encode (.compMPlus1 3#2 .none .none) = 0xFDC0#16

/-- 42_alu_comp.md R111, R112, R122. -/
def Obligations.DecrementComps : Prop :=
  (∀ (u : BitVec 2) (d : Dest) (j : Jump) (s : State),
    (let out := s.regD - 1#16
     Does (.compDMinus1 u d j) s out d (Taken j out)) ∧
    (let out := s.regA - 1#16
     Does (.compAMinus1 u d j) s out d (Taken j out)) ∧
    (let out := cellM s - 1#16
     Does (.compMMinus1 u d j) s out d (Taken j out))) ∧
  encode (.compDMinus1 3#2 .none .none) = 0xE380#16 ∧
  encode (.compAMinus1 3#2 .none .none) = 0xEC80#16 ∧
  encode (.compMMinus1 3#2 .none .none) = 0xFC80#16

/-- 42_alu_comp.md R113, R123. -/
def Obligations.SumComps : Prop :=
  (∀ (u : BitVec 2) (d : Dest) (j : Jump) (s : State),
    (let out := s.regD + s.regA
     Does (.compDPlusA u d j) s out d (Taken j out)) ∧
    (let out := s.regD + cellM s
     Does (.compDPlusM u d j) s out d (Taken j out))) ∧
  encode (.compDPlusA 3#2 .none .none) = 0xE080#16 ∧
  encode (.compDPlusM 3#2 .none .none) = 0xF080#16

/-- 42_alu_comp.md R114, R115, R124, R125. -/
def Obligations.DifferenceComps : Prop :=
  (∀ (u : BitVec 2) (d : Dest) (j : Jump) (s : State),
    (let out := s.regD - s.regA
     Does (.compDMinusA u d j) s out d (Taken j out)) ∧
    (let out := s.regA - s.regD
     Does (.compAMinusD u d j) s out d (Taken j out)) ∧
    (let out := s.regD - cellM s
     Does (.compDMinusM u d j) s out d (Taken j out)) ∧
    (let out := cellM s - s.regD
     Does (.compMMinusD u d j) s out d (Taken j out))) ∧
  encode (.compDMinusA 3#2 .none .none) = 0xE4C0#16 ∧
  encode (.compAMinusD 3#2 .none .none) = 0xE1C0#16 ∧
  encode (.compDMinusM 3#2 .none .none) = 0xF4C0#16 ∧
  encode (.compMMinusD 3#2 .none .none) = 0xF1C0#16

/-- 42_alu_comp.md R116, R117, R126, R127. -/
def Obligations.LogicComps : Prop :=
  (∀ (u : BitVec 2) (d : Dest) (j : Jump) (s : State),
    (let out := s.regD &&& s.regA
     Does (.compDAndA u d j) s out d (Taken j out)) ∧
    (let out := s.regD ||| s.regA
     Does (.compDOrA u d j) s out d (Taken j out)) ∧
    (let out := s.regD &&& cellM s
     Does (.compDAndM u d j) s out d (Taken j out)) ∧
    (let out := s.regD ||| cellM s
     Does (.compDOrM u d j) s out d (Taken j out))) ∧
  encode (.compDAndA 3#2 .none .none) = 0xE000#16 ∧
  encode (.compDOrA 3#2 .none .none) = 0xE540#16 ∧
  encode (.compDAndM 3#2 .none .none) = 0xF000#16 ∧
  encode (.compDOrM 3#2 .none .none) = 0xF540#16

/-- 43_dest.md R131, R133, R135, R137. -/
def Obligations.DestRowsWithoutStore : Prop :=
  (∀ (u : BitVec 2) (c : Comp) (j : Jump) (s : State), Executed c s →
    let out := aluOut c s
    Does (.destNull u c j) s out ⟨false, false, false⟩ (Taken j out) ∧
    Does (.destD u c j) s out ⟨false, true, false⟩ (Taken j out) ∧
    Does (.destA u c j) s out ⟨true, false, false⟩ (Taken j out) ∧
    Does (.destAD u c j) s out ⟨true, true, false⟩ (Taken j out)) ∧
  encode (.destNull 3#2 CompRow.dPlus1.comp .none) = 0xE7C0#16 ∧
  encode (.destD 3#2 CompRow.dPlus1.comp .none) = 0xE7D0#16 ∧
  encode (.destA 3#2 CompRow.dPlus1.comp .none) = 0xE7E0#16 ∧
  encode (.destAD 3#2 CompRow.dPlus1.comp .none) = 0xE7F0#16

/-- 43_dest.md R132, R134, R136, R138. -/
def Obligations.DestRowsWithStore : Prop :=
  (∀ (u : BitVec 2) (c : Comp) (j : Jump) (s : State), Executed c s →
    let out := aluOut c s
    Does (.destM u c j) s out ⟨false, false, true⟩ (Taken j out) ∧
    Does (.destMD u c j) s out ⟨false, true, true⟩ (Taken j out) ∧
    Does (.destAM u c j) s out ⟨true, false, true⟩ (Taken j out) ∧
    Does (.destAMD u c j) s out ⟨true, true, true⟩ (Taken j out)) ∧
  encode (.destM 3#2 CompRow.dPlus1.comp .none) = 0xE7C8#16 ∧
  encode (.destMD 3#2 CompRow.dPlus1.comp .none) = 0xE7D8#16 ∧
  encode (.destAM 3#2 CompRow.dPlus1.comp .none) = 0xE7E8#16 ∧
  encode (.destAMD 3#2 CompRow.dPlus1.comp .none) = 0xE7F8#16

/-- 44_jump.md R141 to R148. -/
def Obligations.JumpRows : Prop :=
  (∀ (u : BitVec 2) (c : Comp) (d : Dest) (s : State), Executed c s →
    let out := aluOut c s
    Does (.jumpNull u c d) s out d (False) ∧
    Does (.jumpJGT u c d) s out d (0 < out.toInt) ∧
    Does (.jumpJEQ u c d) s out d (out = 0x0000#16) ∧
    Does (.jumpJGE u c d) s out d (0 ≤ out.toInt) ∧
    Does (.jumpJLT u c d) s out d (out.toInt < 0) ∧
    Does (.jumpJNE u c d) s out d (out ≠ 0x0000#16) ∧
    Does (.jumpJLE u c d) s out d (out.toInt ≤ 0) ∧
    Does (.jumpJMP u c d) s out d (True)) ∧
  encode (.jumpNull 3#2 CompRow.d.comp .none) = 0xE300#16 ∧
  encode (.jumpJGT 3#2 CompRow.d.comp .none) = 0xE301#16 ∧
  encode (.jumpJEQ 3#2 CompRow.d.comp .none) = 0xE302#16 ∧
  encode (.jumpJGE 3#2 CompRow.d.comp .none) = 0xE303#16 ∧
  encode (.jumpJLT 3#2 CompRow.d.comp .none) = 0xE304#16 ∧
  encode (.jumpJNE 3#2 CompRow.d.comp .none) = 0xE305#16 ∧
  encode (.jumpJLE 3#2 CompRow.d.comp .none) = 0xE306#16 ∧
  encode (.jumpJMP 3#2 CompRow.d.comp .none) = 0xE307#16

/-- 44_jump.md R152: POST gives `target = out`, PRE gives `target = A0`. -/
def Obligations.JumpSampleMattersOnlyWhenAIsWritten : Prop :=
  (∀ (u : BitVec 2) (c : Comp) (d : Dest) (j : Jump) (s : State), d.toA = false →
    ∃ t, exec (.cGeneric u c d j) { s with cfg := { s.cfg with jumpASample := .post } } = .next t ∧
      exec (.cGeneric u c d j) { s with cfg := { s.cfg with jumpASample := .pre } } =
        .next { t with cfg := { t.cfg with jumpASample := .pre } }) ∧
  (∀ (u : BitVec 2) (c : Comp) (d : Dest) (j : Jump) (s : State), d.toA = true → Executed c s →
    Taken j (aluOut c s) →
    ∃ t, exec (.cGeneric u c d j) s = .next t ∧ t.regA = aluOut c s ∧
      (s.cfg.jumpASample = .post → t.pc = aluOut c s) ∧ (s.cfg.jumpASample = .pre → t.pc = s.regA))

/-- 20_memory.md R32. -/
def Obligations.RamAddressIsMasked : Prop :=
  ∀ (s : State) (w v : Word),
    s.memRead w = s.ram.read (w.toNat % 32768) ∧
    (s.memWrite w v).ram = s.ram.write (w.toNat % 32768) v ∧
    effAddr w < ramWords ∧ (0x8000 ≤ w.toNat → effAddr w = w.toNat - 32768) ∧
    (w.toNat < 0x8000 → effAddr w = w.toNat)

/-- 20_memory.md R41. -/
def Obligations.ReadReturnsTheLastWrite : Prop :=
  ∀ (s : State) (a b v : Word),
    (s.memWrite a v).memRead b = (if effAddr b = effAddr a then v else s.memRead b) ∧
    (s.memWrite a v).regA = s.regA ∧ (s.memWrite a v).regD = s.regD ∧ (s.memWrite a v).pc = s.pc ∧
    (s.memWrite a v).rom = s.rom ∧ (s.memWrite a v).cfg = s.cfg

/-- 20_memory.md R31: the data space is reached only at the cell A names, and ROM only by the fetch at `pc` (its other
words have no influence on the step). -/
def Obligations.StepTouchesOneCellAndNoRom : Prop :=
  ∀ s t : State, step s = .next t →
    (∀ i, i ≠ effAddr s.regA → t.ram.read i = s.ram.read i) ∧ t.rom = s.rom ∧ t.cfg = s.cfg ∧
    (∀ w, s.rom[s.pc.toNat]? = some w → w.getLsbD 15 = false ∨ w.getLsbD 3 = false → t.ram = s.ram) ∧
    (∀ (rom : List Word) (w : Word), s.rom[s.pc.toNat]? = some w → rom[s.pc.toNat]? = some w →
      step { s with rom := rom } = .next { t with rom := rom }) ∧
    (∀ (m : Memory) (w : Word), s.rom[s.pc.toNat]? = some w →
      w.getLsbD 15 = false ∨ w.getLsbD 12 = false ∨ m.read (effAddr s.regA) = s.ram.read (effAddr s.regA) →
      ∃ t', step { s with ram := m } = .next t' ∧ t'.regA = t.regA ∧ t'.regD = t.regD ∧ t'.pc = t.pc)

/-- 41_c_instruction.md R77: RAM is read only when `a = 1`. What is stored does not depend on RAM either. -/
def Obligations.NoRamReadWithoutTheABit : Prop :=
  ∀ (i : Instr) (s : State) (m : Memory), (∀ f, i.cFields? = some f → f.comp.y = .regA) →
    ∃ t t', exec i s = .next t ∧ exec i { s with ram := m } = .next t' ∧
      t'.regA = t.regA ∧ t'.regD = t.regD ∧ t'.pc = t.pc ∧
      (∀ k, k ≠ effAddr s.regA → t.ram.read k = s.ram.read k ∧ t'.ram.read k = m.read k) ∧
      ∀ k, t.ram.read k ≠ s.ram.read k → t'.ram.read k = t.ram.read k

/-- 10_state.md R15, R17; 41_c_instruction.md R82. -/
def Obligations.PcIncrementNeverWraps : Prop :=
  ∀ s t : State, Inv s → step s = .next t →
    (t.pc.toNat = s.pc.toNat + 1 ∧ t.pc.toNat ≤ s.rom.length) ∨
    (∃ w, s.rom[s.pc.toNat]? = some w ∧ w.getLsbD 15 = true ∧ w &&& 0x0007#16 ≠ 0#16 ∧
      (t.pc = t.regA ∨ t.pc = s.regA))

/-- The state is always 32768 RAM cells and at most 32768 ROM words (10_state.md R10); the canonical form of the RAM is the
model's (log entry 3). -/
def Obligations.EveryStepKeepsTheInvariant : Prop :=
  ∀ s t : State, Inv s → step s = .next t → Inv t

/-- 10_state.md R22. -/
def Obligations.InvariantHoldsAtReset : Prop :=
  Inv State.reset ∧ ∀ (cfg : Config) (text : List Char) (s : State), loadRom cfg text = .ok s → Inv s

/-- 47_host_operations.md table R160: the only operations that change machine state; 10_state.md R23: no state before the
first load (log entry 11). -/
def Obligations.EveryHostSessionKeepsTheInvariant : Prop :=
  (∀ (m : HostMachine) (op : HostAction), HostInv m → HostInv (m.act op)) ∧
  ∀ (cfg : Config) (ops : List HostAction),
    HostInv (HostMachine.new cfg) ∧
    HostInv ((HostMachine.new cfg).session ops) ∧
    ((∀ text, HostAction.loadRom text ∉ ops) → (HostMachine.new cfg).session ops = .unlaunched cfg)

/-- 47_host_operations.md R165, for HALT_DETECT = off. -/
def Obligations.StepsCompose : Prop :=
  ∀ (n m : Nat) (s : State), (stepN 1)^[n] s = stepN n s ∧ stepN m (stepN n s) = stepN (n + m) s

/-- 47_host_operations.md R167. -/
def Obligations.SetKeyboardWritesOneCell : Prop :=
  ∀ (code : Int) (s : State),
    ((setKeyboard code s).ram.read 24576).toNat = code % 65536 ∧
    (∀ i, i ≠ 24576 → (setKeyboard code s).ram.read i = s.ram.read i) ∧
    (setKeyboard code s).regA = s.regA ∧ (setKeyboard code s).regD = s.regD ∧ (setKeyboard code s).pc = s.pc ∧
    (setKeyboard code s).rom = s.rom ∧ (setKeyboard code s).cfg = s.cfg

/-- 47_host_operations.md R168. -/
def Obligations.CpuViewReadsTheState : Prop :=
  ∀ s : State, s.cpuView.a = s.regA ∧ s.cpuView.d = s.regD ∧ s.cpuView.pc = s.pc ∧
    s.cpuView.m = s.ram.read (s.regA.toNat % 32768)

/-- 20_memory.md R36 (the form of conflict C6 that the spec uses); 47_host_operations.md R169. -/
def Obligations.ScreenBitsArePixels : Prop :=
  ∀ (s : State) (w b : Nat), w < 8192 → b < 16 →
    (s.pixel ((w * 16 + b) % 512) ((w * 16 + b) / 512) =
      if (s.ram.read (16384 + w)).getLsbD b then .green else .black) ∧
    (w * 16 + b) / 512 = w / 32 ∧ (w * 16 + b) % 512 = (w % 32) * 16 + b ∧
    (s.screenImage[w / 32]?.bind fun row => row[(w % 32) * 16 + b]?) =
      some (s.pixel ((w * 16 + b) % 512) ((w * 16 + b) / 512))

/-- 70_reset_and_hazards.md R206. -/
def Obligations.HaltLoopRunsForever : Prop :=
  (∀ s : State, s.haltLoop = true ↔ ∃ l, HaltLoopIndex s l) ∧
  ∀ (s : State) (l n : Nat), HaltLoopIndex s l →
    let t := stepN n s
    HaltLoopIndex t l ∧ (∃ t', step t = .next t') ∧
    t.ram = s.ram ∧ t.regD = s.regD ∧ t.rom = s.rom ∧ t.cfg = s.cfg ∧
    (t.pc.toNat = if (s.pc.toNat - l + n) % 2 = 0 then l else l + 1) ∧
    (s.pc.toNat = l + 1 ∨ 1 ≤ n → t.regA.toNat = l)

/-- 47_host_operations.md R166: stopping early is invisible in RAM and in D (log entry 9). -/
def Obligations.EarlyStopIsInvisibleInRamAndD : Prop :=
  ∀ (n : Nat) (s t : State),
    stepMayReturn n s (stepN n s) ∧
    (s.cfg.haltDetect = .off → stepMayReturn n s t → t = stepN n s) ∧
    (stepMayReturn n s t → t.ram = (stepN n s).ram ∧ t.regD = (stepN n s).regD ∧ t.rom = (stepN n s).rom ∧
      (t ≠ stepN n s → ∃ l, HaltLoopIndex t l ∧ HaltLoopIndex (stepN n s) l))

/-- 70_reset_and_hazards.md R207. -/
def Obligations.FinishedRunsKeepTheirResult : Prop :=
  (∀ (s : State) (n k : Nat), EndsAfter n s → n ≤ k →
    (stepN k s).ram = (stepN n s).ram ∧ (stepN k s).regD = (stepN n s).regD) ∧
  (∀ (s : State) (n k : Nat), EndsAfter n s → EndsAfter k s → n = k) ∧
  (∀ (s : State) (n : Nat), Stuck s → ¬ EndsAfter n s)

/-- 30_encoding.md R69, the assembler round trip. -/
def Obligations.AssembleInvertsDisassemble : Prop :=
  (∀ (w : Word) (text : List Char), disassemble w = some text → assemble text = .ok [w]) ∧
  (∀ w : Word, (disassemble w).isSome = true ↔
    w.getLsbD 15 = false ∨ (w.getLsbD 14 = true ∧ w.getLsbD 13 = true ∧ (CFields.ofWord w).comp.documented = true)) ∧
  (∀ v : BitVec 15, disassemble (encode (.atValue v)) = some ('@' :: Nat.toDigits 10 v.toNat)) ∧
  (∀ (r : CompRow) (d : Dest) (j : Jump),
    disassemble (CFields.toWord ⟨3#2, r.comp, d, j⟩) = some (destText d ++ compText r ++ jumpText j))

/-- 30_encoding.md R61, R62. -/
def Obligations.AssemblyEmitsOneWordAnInstruction : Prop :=
  ∀ (text : List Char) (ws : List Word), assemble text = .ok ws →
    ∃ xs, parseAsmLines 0 (splitLines text) = .ok xs ∧
      let lines := (xs.map Prod.snd).filter hasWord
      ws.length = lines.length ∧ ws.length ≤ romMax ∧
      ∀ (k : Nat) (x : AsmLine) (w : Word), lines[k]? = some x → ws[k]? = some w →
        match x with
        | AsmLine.literal n => w = BitVec.ofNat 16 n
        | .instr v => w = v
        | .symbol _ => w.getLsbD 15 = false
        | .label _ => False

/-- 30_encoding.md R67: each error has a line number, assembly stops at the first, and an error yields no ROM. The numbering
and the order of the passes are the model's choice (log entry 14), and so is the line of an overflow (log entry 17). -/
def Obligations.AssemblerErrorsNameTheirLine : Prop :=
  (∀ (text l : List Char) (n : Nat) (e : AsmError),
    (∀ k x, k < n → (splitLines text)[k]? = some x → stripLine x = [] ∨ ∃ y, parseAsmLine k (stripLine x) = .ok y) →
    (splitLines text)[n]? = some l → stripLine l ≠ [] → parseAsmLine n (stripLine l) = .error e →
    assemble text = .error e ∧ errorLine e = n) ∧
  (∀ (text : List Char) (xs pre post : List (Nat × AsmLine)) (n : Nat) (name : List Char) (tab : SymbolTable) (v : Nat),
    parseAsmLines 0 (splitLines text) = .ok xs → xs = pre ++ (n, .label name) :: post →
    bindLabels 0 predefined pre = .ok tab → tab.value? name = some v →
    assemble text = .error (.duplicateSymbol n)) ∧
  (∀ (text : List Char) (xs : List (Nat × AsmLine)) (n : Nat) (x : AsmLine),
    parseAsmLines 0 (splitLines text) = .ok xs → (xs.filter fun p => hasWord p.2)[romMax]? = some (n, x) →
    (∃ e, assemble text = .error e) ∧
    (∀ tab, bindLabels 0 predefined xs = .ok tab → (∀ p ∈ xs, ∀ name, p.2 ≠ .symbol name) →
      assemble text = .error (.romOverflow n)))
end

