-- ==== Sys2Proof/Laws/Assembly.lean ====
section
/-! SUPPORT. What the second pass of the assembler can answer: one word a line that is not a label, and never more words
than a ROM holds. -/

namespace Sys2Proof.Machine

open Sys2Proof.Safety

/-- A line's word, where the line has one: what a literal and a C line emit, and an A word for a symbol. -/
theorem asmWord_spec {free : Nat} {tab : SymbolTable} {n : Nat} {x : AsmLine} {r : Option Word × Nat × SymbolTable}
    (h : asmWord free tab n x = .ok r) :
    (r.1 = none ∧ hasWord x = false) ∨
    ∃ w, r.1 = some w ∧ hasWord x = true ∧
      match x with
      | .label _ => False
      | .literal v => w = BitVec.ofNat 16 v
      | .instr v => w = v
      | .symbol _ => ∃ v, v ≤ 32767 ∧ w = BitVec.ofNat 16 v := by
  cases x with
  | label name => cases h; exact .inl ⟨rfl, rfl⟩
  | literal v => cases h; exact .inr ⟨_, rfl, rfl, rfl⟩
  | instr w => cases h; exact .inr ⟨_, rfl, rfl, rfl⟩
  | symbol name =>
    simp only [asmWord] at h
    split at h
    · next v _ =>
      split at h
      · next hv => cases h; exact .inr ⟨_, rfl, rfl, v, hv, rfl⟩
      · cases h
    · split at h
      · next hv => cases h; exact .inr ⟨_, rfl, rfl, free, hv, rfl⟩
      · cases h

/-- One line of the second pass: a label adds nothing; any other line adds its word if there is room. -/
theorem emitWords_cons_ok {i free n : Nat} {tab : SymbolTable} {x : AsmLine} {xs : List (Nat × AsmLine)} {ws : List Word}
    (h : emitWords i free tab ((n, x) :: xs) = .ok ws) :
    ∃ r, asmWord free tab n x = .ok r ∧
      ((r.1 = none ∧ emitWords i r.2.1 r.2.2 xs = .ok ws) ∨
       ∃ w ws', r.1 = some w ∧ i < romMax ∧ ws = w :: ws' ∧ emitWords (i + 1) r.2.1 r.2.2 xs = .ok ws') := by
  rw [emitWords] at h
  split at h
  · cases h
  · next f t he => exact ⟨_, he, .inl ⟨rfl, h⟩⟩
  · next w f t he =>
    split at h
    · next hi =>
      split at h
      · cases h
      · next ws' hw => cases h; exact ⟨_, he, .inr ⟨w, ws', rfl, hi, rfl, hw⟩⟩
    · cases h

/-- The second pass never makes the words more than a ROM holds. -/
theorem emitWords_length {xs : List (Nat × AsmLine)} {i free : Nat} {tab : SymbolTable} {ws : List Word}
    (h : emitWords i free tab xs = .ok ws) (hi : i ≤ romMax) : i + ws.length ≤ romMax := by
  induction xs generalizing i free tab ws with
  | nil => cases h; exact hi
  | cons p xs ih =>
    obtain ⟨r, -, ⟨-, h'⟩ | ⟨w, ws', -, hlt, rfl, h'⟩⟩ := emitWords_cons_ok (n := p.1) (x := p.2) h
    · exact ih h' hi
    · have := ih h' hlt
      simp only [List.length_cons]; omega

end Sys2Proof.Machine
end

