-- ==== Sys2Proof/Laws/Codec.lean ====
section
/-! SUPPORT. The laws of the encoding: the fields of a C word come back from its word, and the row the decoder shows a
word as has the word's fields. -/

namespace Sys2Proof

/-! ### Field codes -/

theorem YSel.ofBit_bit (y : YSel) : YSel.ofBit y.bit = y := by cases y <;> rfl

theorem YSel.bit_ofBit (b : Bool) : (YSel.ofBit b).bit = b := by cases b <;> rfl

theorem AluCtl.ofCode_code (c : AluCtl) : AluCtl.ofCode c.code = c := by
  obtain ⟨a, b, c, d, e, f⟩ := c; revert a b c d e f; decide

theorem AluCtl.code_ofCode (c : BitVec 6) : (AluCtl.ofCode c).code = c := by revert c; decide

theorem Dest.ofCode_code (d : Dest) : Dest.ofCode d.code = d := by
  obtain ⟨a, b, c⟩ := d; revert a b c; decide

theorem Dest.code_ofCode (c : BitVec 3) : (Dest.ofCode c).code = c := by revert c; decide

theorem Jump.ofCode_code (j : Jump) : Jump.ofCode j.code = j := by
  obtain ⟨a, b, c⟩ := j; revert a b c; decide

theorem Jump.code_ofCode (c : BitVec 3) : (Jump.ofCode c).code = c := by revert c; decide

/-! ### The documented comps -/

theorem CompRow.row?_comp (r : CompRow) : r.comp.row? = some r := by cases r <;> decide

theorem CompRow.documented_comp (r : CompRow) : r.comp.documented = true := by cases r <;> decide

theorem Comp.comp_of_row? {c : Comp} {r : CompRow} (h : c.row? = some r) : r.comp = c := by
  simpa using List.find?_some h

theorem Comp.documented_iff (c : Comp) : c.documented = true ↔ ∃ r : CompRow, r.comp = c := by
  constructor
  · intro h
    obtain ⟨r, hr⟩ := Option.isSome_iff_exists.mp h
    exact ⟨r, Comp.comp_of_row? hr⟩
  · rintro ⟨r, rfl⟩
    exact r.documented_comp

/-! ### C words -/

theorem CFields.toWord_ofWord {w : Word} (h : w.getLsbD 15 = true) : (CFields.ofWord w).toWord = w := by
  simp only [CFields.ofWord, CFields.toWord, YSel.bit_ofBit, AluCtl.code_ofCode, Dest.code_ofCode, Jump.code_ofCode]
  apply BitVec.eq_of_getLsbD_eq
  intro i hi
  interval_cases i <;> simp [h]

theorem CFields.ofWord_toWord (f : CFields) : CFields.ofWord f.toWord = f := by
  obtain ⟨u, ⟨y, c⟩, d, j⟩ := f
  have hu : (CFields.toWord ⟨u, ⟨y, c⟩, d, j⟩).extractLsb' 13 2 = u := by
    apply BitVec.eq_of_getLsbD_eq
    intro i hi
    interval_cases i <;> simp [CFields.toWord]
  have hy : (CFields.toWord ⟨u, ⟨y, c⟩, d, j⟩).getLsbD 12 = y.bit := by
    simp [CFields.toWord]
  have hc : (CFields.toWord ⟨u, ⟨y, c⟩, d, j⟩).extractLsb' 6 6 = c.code := by
    apply BitVec.eq_of_getLsbD_eq
    intro i hi
    interval_cases i <;> simp [CFields.toWord]
  have hd : (CFields.toWord ⟨u, ⟨y, c⟩, d, j⟩).extractLsb' 3 3 = d.code := by
    apply BitVec.eq_of_getLsbD_eq
    intro i hi
    interval_cases i <;> simp [CFields.toWord]
  have hj : (CFields.toWord ⟨u, ⟨y, c⟩, d, j⟩).extractLsb' 0 3 = j.code := by
    apply BitVec.eq_of_getLsbD_eq
    intro i hi
    interval_cases i <;> simp [CFields.toWord]
  simp only [CFields.ofWord, hu, hy, hc, hd, hj, YSel.ofBit_bit, AluCtl.ofCode_code, Dest.ofCode_code,
    Jump.ofCode_code]

theorem CFields.toWord_bit15 (f : CFields) : f.toWord.getLsbD 15 = true := by
  simp [CFields.toWord]

/-! ### Rows -/

theorem CompRow.cFields?_instr (r : CompRow) (u : BitVec 2) (d : Dest) (j : Jump) :
    (r.instr u d j).cFields? = some ⟨u, r.comp, d, j⟩ := by
  cases r <;> rfl

theorem Dest.cFields?_instr (d : Dest) (u : BitVec 2) (c : Comp) (j : Jump) :
    (d.instr u c j).cFields? = some ⟨u, c, d, j⟩ := by
  rcases d with ⟨_ | _, _ | _, _ | _⟩ <;> rfl

theorem Jump.cFields?_instr (j : Jump) (u : BitVec 2) (c : Comp) (d : Dest) :
    (j.instr u c d).cFields? = some ⟨u, c, d, j⟩ := by
  rcases j with ⟨_ | _, _ | _, _ | _⟩ <;> rfl

/-- The row a C word is shown as has the word's fields. -/
theorem CFields.cFields?_instr (f : CFields) : f.instr.cFields? = some f := by
  obtain ⟨u, c, d, j⟩ := f
  unfold CFields.instr
  dsimp only
  split
  · next hd =>
    subst hd
    split
    · next hj =>
      subst hj
      split
      · next r hr => rw [CompRow.cFields?_instr, Comp.comp_of_row? hr]
      · split <;> rfl
    · rw [Jump.cFields?_instr]
  · split
    · next hj => subst hj; rw [Dest.cFields?_instr]
    · split
      · next r hr => rw [CompRow.cFields?_instr, Comp.comp_of_row? hr]
      · rfl

/-- An instruction is the A-instruction or has the fields of a C word, and its word is that C word. -/
theorem Instr.kind (i : Instr) :
    (∃ v, i = .atValue v) ∨ ∃ f, i.cFields? = some f ∧ encode i = f.toWord := by
  cases i with
  | atValue v => exact .inl ⟨v, rfl⟩
  | _ => exact .inr ⟨_, rfl, rfl⟩

theorem encode_of_cFields? {i : Instr} {f : CFields} (h : i.cFields? = some f) : encode i = f.toWord := by
  obtain ⟨v, rfl⟩ | ⟨g, hg, he⟩ := i.kind
  · simp [Instr.cFields?] at h
  · rw [he, Option.some.inj (hg.symm.trans h)]

theorem encode_atValue_bit15 (v : BitVec 15) : (encode (.atValue v)).getLsbD 15 = false := by
  simp [encode]

theorem decode_encode_atValue (v : BitVec 15) : decode (encode (.atValue v)) = .atValue v := by
  rw [decode, encode_atValue_bit15]
  simp only [Bool.false_eq_true, if_false, Instr.atValue.injEq]
  apply BitVec.eq_of_getLsbD_eq
  intro i hi
  interval_cases i <;> simp [encode]

theorem decode_toWord (f : CFields) : decode f.toWord = f.instr := by
  rw [decode, CFields.toWord_bit15, if_pos rfl, CFields.ofWord_toWord]

end Sys2Proof
end

