-- ==== Sys2Proof/Laws/Memory.lean ====
section
/-! SUPPORT. The laws of the data memory: what a read gives after a write, and that a write keeps the canonical
form. -/

namespace Sys2Proof.Machine

@[simp] theorem Memory.read_nil (i : Nat) : Memory.read [] i = Memory.unlisted := rfl

theorem Memory.read_erase (m : Memory) (i k : Nat) :
    (m.erase i).read k = if k = i then Memory.unlisted else m.read k := by
  induction m with
  | nil => simp [Memory.erase, Memory.read]
  | cons e m ih =>
    obtain ⟨a, x⟩ := e
    by_cases hai : a = i
    · subst hai
      by_cases hk : k = a
      · subst hk; simpa [Memory.erase] using ih
      · simp [Memory.erase, Memory.read, ih, hk, Ne.symm hk]
    · by_cases hk : k = i
      · subst hk; simp [Memory.erase, Memory.read, ih, hai]
      · simp [Memory.erase, Memory.read, ih, hai, hk]

theorem Memory.read_insert (m : Memory) (i k : Nat) (w : Word) (hm : ∀ e ∈ m, e.1 ≠ i) :
    (m.insert i w).read k = if k = i then w else m.read k := by
  induction m with
  | nil =>
    by_cases hk : k = i
    · simp [Memory.insert, Memory.read, hk]
    · simp [Memory.insert, Memory.read, hk, Ne.symm hk]
  | cons e m ih =>
    obtain ⟨a, x⟩ := e
    have ha : a ≠ i := hm (a, x) (by simp)
    have ih := ih fun e he => hm e (by simp [he])
    unfold Memory.insert
    split
    · by_cases hk : k = i
      · simp [Memory.read, hk]
      · simp [Memory.read, hk, Ne.symm hk]
    · by_cases hk : k = i
      · subst hk; simp [Memory.read, ih, ha]
      · simp [Memory.read, ih, hk]

theorem Memory.not_mem_erase (m : Memory) (i : Nat) : ∀ e ∈ m.erase i, e.1 ≠ i := by
  induction m with
  | nil => simp [Memory.erase]
  | cons e m ih =>
    obtain ⟨a, x⟩ := e
    by_cases hai : a = i
    · simpa [Memory.erase, hai] using ih
    · simpa [Memory.erase, hai] using ih

/-- A read after a write gives the word written, and every other cell reads as before. -/
theorem Memory.read_write (m : Memory) (i k : Nat) (w : Word) :
    (m.write i w).read k = if k = i then w else m.read k := by
  unfold Memory.write
  split
  · next h => rw [Memory.read_erase, h]
  · rw [Memory.read_insert _ _ _ _ (m.not_mem_erase i), Memory.read_erase]
    split <;> rfl

theorem Memory.wfFrom_mono (m : Memory) {lo hi : Nat} (h : lo ≤ hi) (hm : Memory.wfFrom hi m = true) :
    Memory.wfFrom lo m = true := by
  cases m with
  | nil => rfl
  | cons e m =>
    simp only [Memory.wfFrom, Bool.and_eq_true, decide_eq_true_eq] at hm ⊢
    exact ⟨⟨⟨by omega, hm.1.1.2⟩, hm.1.2⟩, hm.2⟩

theorem Memory.wfFrom_erase (m : Memory) (lo i : Nat) (hm : Memory.wfFrom lo m = true) :
    Memory.wfFrom lo (m.erase i) = true := by
  induction m generalizing lo with
  | nil => rfl
  | cons e m ih =>
    obtain ⟨a, x⟩ := e
    simp only [Memory.wfFrom, Bool.and_eq_true, decide_eq_true_eq] at hm
    by_cases hai : a = i
    · simpa [Memory.erase, hai] using Memory.wfFrom_mono _ (by omega) (ih (a + 1) hm.2)
    · simp [Memory.erase, hai, Memory.wfFrom, hm.1.1.1, hm.1.1.2, ih (a + 1) hm.2]
      simpa using hm.1.2

theorem Memory.wfFrom_insert (m : Memory) (lo i : Nat) (w : Word) (hm : Memory.wfFrom lo m = true)
    (hne : ∀ e ∈ m, e.1 ≠ i) (hlo : lo ≤ i) (hi : i < ramWords) (hw : w ≠ Memory.unlisted) :
    Memory.wfFrom lo (m.insert i w) = true := by
  induction m generalizing lo with
  | nil => simp [Memory.insert, Memory.wfFrom, hlo, hi, hw]
  | cons e m ih =>
    obtain ⟨a, x⟩ := e
    have ha : a ≠ i := hne (a, x) (by simp)
    simp only [Memory.wfFrom, Bool.and_eq_true, decide_eq_true_eq] at hm
    obtain ⟨⟨⟨h1, h2⟩, h3⟩, h4⟩ := hm
    unfold Memory.insert
    split
    · next hlt => simp only [Memory.wfFrom, Bool.and_eq_true, decide_eq_true_eq]
                  exact ⟨⟨⟨hlo, hi⟩, by simpa using hw⟩, ⟨⟨by omega, h2⟩, h3⟩, h4⟩
    · next hge =>
      simp only [Memory.wfFrom, Bool.and_eq_true, decide_eq_true_eq]
      exact ⟨⟨⟨h1, h2⟩, h3⟩, ih (a + 1) h4 (fun e he => hne e (by simp [he])) (by omega)⟩

/-- A write to a cell of the RAM keeps the canonical form. -/
theorem Memory.wf_write (m : Memory) (i : Nat) (w : Word) (hm : m.wf = true) (hi : i < ramWords) :
    (m.write i w).wf = true := by
  unfold Memory.write Memory.wf
  split
  · exact Memory.wfFrom_erase m 0 i hm
  · next hw => exact Memory.wfFrom_insert _ 0 i w (Memory.wfFrom_erase m 0 i hm) (m.not_mem_erase i) (by omega) hi hw

theorem Memory.read_below (m : Memory) {lo i : Nat} (h : Memory.wfFrom lo m = true) (hi : i < lo) :
    m.read i = Memory.unlisted := by
  induction m generalizing lo with
  | nil => rfl
  | cons e m ih =>
    obtain ⟨k, v⟩ := e
    simp only [Memory.wfFrom, Bool.and_eq_true, decide_eq_true_eq] at h
    rw [Memory.read, if_neg (by omega), ih h.2 (by omega)]

/-- Memories in canonical form that read alike are equal data. -/
theorem Memory.eq_of_read {m n : Memory} {lo : Nat} (hm : Memory.wfFrom lo m = true) (hn : Memory.wfFrom lo n = true)
    (h : ∀ i, m.read i = n.read i) : m = n := by
  induction m generalizing n lo with
  | nil =>
    cases n with
    | nil => rfl
    | cons e n =>
      obtain ⟨k, v⟩ := e
      simp only [Memory.wfFrom, Bool.and_eq_true, bne_iff_ne] at hn
      exact absurd (by simpa [Memory.read] using (h k).symm) hn.1.2
  | cons e m ih =>
    obtain ⟨k, v⟩ := e
    simp only [Memory.wfFrom, Bool.and_eq_true, decide_eq_true_eq, bne_iff_ne] at hm
    obtain ⟨⟨⟨h1, h2⟩, h3⟩, h4⟩ := hm
    cases n with
    | nil => exact absurd (by simpa [Memory.read] using h k) h3
    | cons e' n =>
      obtain ⟨k', v'⟩ := e'
      simp only [Memory.wfFrom, Bool.and_eq_true, decide_eq_true_eq, bne_iff_ne] at hn
      obtain ⟨⟨⟨g1, g2⟩, g3⟩, g4⟩ := hn
      have hk : k = k' := by
        rcases Nat.lt_trichotomy k k' with c | c | c
        · have := h k
          rw [Memory.read, if_pos rfl, Memory.read, if_neg (by omega), Memory.read_below n g4 (by omega)] at this
          exact absurd this h3
        · exact c
        · have := h k'
          rw [Memory.read, if_neg (by omega), Memory.read, if_pos rfl, Memory.read_below m h4 (by omega)] at this
          exact absurd this.symm g3
      subst hk
      have hv := h k
      simp only [Memory.read, if_true] at hv
      subst hv
      congr 1
      apply ih h4 g4
      intro i
      by_cases c : k = i
      · subst c; rw [Memory.read_below m h4 (by omega), Memory.read_below n g4 (by omega)]
      · simpa [Memory.read, c] using h i

/-- The address of every access is one of the 32768 cells (20_memory.md R32). -/
theorem effAddr_lt (w : Word) : effAddr w < ramWords := by
  unfold effAddr ramWords
  have : (w &&& 0x7FFF#16).toNat ≤ (0x7FFF#16 : Word).toNat := by
    rw [BitVec.toNat_and]; exact Nat.and_le_right
  simp at this; simp; omega

theorem effAddr_eq_mod (w : Word) : effAddr w = w.toNat % 32768 := by
  unfold effAddr
  rw [BitVec.toNat_and]
  exact Nat.and_two_pow_sub_one_eq_mod w.toNat 15

end Sys2Proof.Machine
end

