-- ==== Sys2Proof/Laws/State.lean ====
section
/-! SUPPORT. One lemma per field per update of the state, each true by unfolding. -/

namespace Sys2Proof.Machine

variable (s : State) (v w : Word)

@[simp] theorem State.setA_regA : (s.setA v).regA = v := rfl
@[simp] theorem State.setA_regD : (s.setA v).regD = s.regD := rfl
@[simp] theorem State.setA_pc : (s.setA v).pc = s.pc := rfl
@[simp] theorem State.setA_ram : (s.setA v).ram = s.ram := rfl
@[simp] theorem State.setA_rom : (s.setA v).rom = s.rom := rfl
@[simp] theorem State.setA_cfg : (s.setA v).cfg = s.cfg := rfl

@[simp] theorem State.setD_regA : (s.setD v).regA = s.regA := rfl
@[simp] theorem State.setD_regD : (s.setD v).regD = v := rfl
@[simp] theorem State.setD_pc : (s.setD v).pc = s.pc := rfl
@[simp] theorem State.setD_ram : (s.setD v).ram = s.ram := rfl
@[simp] theorem State.setD_rom : (s.setD v).rom = s.rom := rfl
@[simp] theorem State.setD_cfg : (s.setD v).cfg = s.cfg := rfl

@[simp] theorem State.setPc_regA : (s.setPc v).regA = s.regA := rfl
@[simp] theorem State.setPc_regD : (s.setPc v).regD = s.regD := rfl
@[simp] theorem State.setPc_pc : (s.setPc v).pc = v := rfl
@[simp] theorem State.setPc_ram : (s.setPc v).ram = s.ram := rfl
@[simp] theorem State.setPc_rom : (s.setPc v).rom = s.rom := rfl
@[simp] theorem State.setPc_cfg : (s.setPc v).cfg = s.cfg := rfl

@[simp] theorem State.nextPc_regA : s.nextPc.regA = s.regA := rfl
@[simp] theorem State.nextPc_regD : s.nextPc.regD = s.regD := rfl
@[simp] theorem State.nextPc_pc : s.nextPc.pc = s.pc + 1#16 := rfl
@[simp] theorem State.nextPc_ram : s.nextPc.ram = s.ram := rfl
@[simp] theorem State.nextPc_rom : s.nextPc.rom = s.rom := rfl
@[simp] theorem State.nextPc_cfg : s.nextPc.cfg = s.cfg := rfl

@[simp] theorem State.memWrite_regA : (s.memWrite v w).regA = s.regA := rfl
@[simp] theorem State.memWrite_regD : (s.memWrite v w).regD = s.regD := rfl
@[simp] theorem State.memWrite_pc : (s.memWrite v w).pc = s.pc := rfl
@[simp] theorem State.memWrite_ram : (s.memWrite v w).ram = s.ram.write (effAddr v) w := rfl
@[simp] theorem State.memWrite_rom : (s.memWrite v w).rom = s.rom := rfl
@[simp] theorem State.memWrite_cfg : (s.memWrite v w).cfg = s.cfg := rfl

/-! The destination writes, field by field. -/

variable (d : Dest)

@[simp] theorem State.writeDest_regA : (s.writeDest d v).regA = if d.toA then v else s.regA := by
  cases hA : d.toA <;> cases hD : d.toD <;> cases hM : d.toM <;> simp [State.writeDest, hA, hD, hM]

@[simp] theorem State.writeDest_regD : (s.writeDest d v).regD = if d.toD then v else s.regD := by
  cases hA : d.toA <;> cases hD : d.toD <;> cases hM : d.toM <;> simp [State.writeDest, hA, hD, hM]

@[simp] theorem State.writeDest_pc : (s.writeDest d v).pc = s.pc := by
  cases hA : d.toA <;> cases hD : d.toD <;> cases hM : d.toM <;> simp [State.writeDest, hA, hD, hM]

@[simp] theorem State.writeDest_ram :
    (s.writeDest d v).ram = if d.toM then s.ram.write (effAddr s.regA) v else s.ram := by
  cases hA : d.toA <;> cases hD : d.toD <;> cases hM : d.toM <;> simp [State.writeDest, hA, hD, hM]

@[simp] theorem State.writeDest_rom : (s.writeDest d v).rom = s.rom := by
  cases hA : d.toA <;> cases hD : d.toD <;> cases hM : d.toM <;> simp [State.writeDest, hA, hD, hM]

@[simp] theorem State.writeDest_cfg : (s.writeDest d v).cfg = s.cfg := by
  cases hA : d.toA <;> cases hD : d.toD <;> cases hM : d.toM <;> simp [State.writeDest, hA, hD, hM]

/-! The PC update changes PC alone. -/

variable (j : Jump) (out : Word)

@[simp] theorem State.finishJump_regA : (s.finishJump v j out).regA = s.regA := by
  unfold State.finishJump; split <;> rfl

@[simp] theorem State.finishJump_regD : (s.finishJump v j out).regD = s.regD := by
  unfold State.finishJump; split <;> rfl

@[simp] theorem State.finishJump_ram : (s.finishJump v j out).ram = s.ram := by
  unfold State.finishJump; split <;> rfl

@[simp] theorem State.finishJump_rom : (s.finishJump v j out).rom = s.rom := by
  unfold State.finishJump; split <;> rfl

@[simp] theorem State.finishJump_cfg : (s.finishJump v j out).cfg = s.cfg := by
  unfold State.finishJump; split <;> rfl

theorem State.finishJump_pc :
    (s.finishJump v j out).pc = if jumpTaken j out then s.jumpTarget v else s.pc + 1#16 := by
  unfold State.finishJump; split <;> simp [*]

end Sys2Proof.Machine
end

