-- ==== Sys2Proof/Laws/Exec.lean ====
section
/-! SUPPORT. What one instruction and one step can do, said once: later proofs cite these and do not unfold `exec`. -/

namespace Sys2Proof.Machine

open Sys2Proof.Safety

/-- Every C row is the generic C-instruction on its fields. -/
theorem exec_of_cFields? {i : Instr} {f : CFields} (h : i.cFields? = some f) (s : State) :
    exec i s = execC f.comp f.dest f.jump s := by
  cases i <;> cases h <;> rfl

theorem exec_atValue (v : BitVec 15) (s : State) : exec (.atValue v) s = .next (s.setA (v.zeroExtend 16)).nextPc := rfl

/-- A C-instruction always completes: it is skipped, or has its effect. -/
theorem execC_cases (c : Comp) (d : Dest) (j : Jump) (s : State) :
    (s.skips c = true ∧ execC c d j s = .next s.nextPc) ∨
    (s.skips c = false ∧ execC c d j s = .next (s.afterC c d j)) := by
  unfold execC
  cases s.skips c <;> simp

theorem skips_eq_false_iff (s : State) (c : Comp) : s.skips c = false ↔ Executed c s := by
  unfold State.skips Executed
  cases c.documented <;> cases s.cfg.undocComp <;> decide

theorem execC_of_executed {c : Comp} {s : State} (h : Executed c s) (d : Dest) (j : Jump) :
    execC c d j s = .next (s.afterC c d j) := by
  unfold execC
  rw [(skips_eq_false_iff s c).mpr h]
  rfl

theorem execC_of_not_executed {c : Comp} {s : State} (h : ¬ Executed c s) (d : Dest) (j : Jump) :
    execC c d j s = .next s.nextPc := by
  unfold execC
  rw [if_pos (Bool.eq_true_of_not_eq_false (mt (skips_eq_false_iff s c).mp h))]

/-! ### The jump decision by the signed reading -/

theorem isNeg_iff (w : Word) : isNeg w = true ↔ w.toInt < 0 := by
  rw [BitVec.toInt_neg_iff, isNeg, ← BitVec.msb_eq_getLsbD_last, BitVec.msb_eq_decide]
  simp; omega

theorem isZero_iff (w : Word) : isZero w = true ↔ w.toInt = 0 := by
  rw [isZero, beq_iff_eq, ← BitVec.toInt_inj, BitVec.toInt_zero]

theorem isPos_iff (w : Word) : isPos w = true ↔ 0 < w.toInt := by
  have h1 := isNeg_iff w
  have h2 := isZero_iff w
  unfold isPos
  rcases hn : isNeg w with _ | _ <;> rcases hz : isZero w with _ | _ <;> simp_all <;> omega

theorem jumpTaken_iff (j : Jump) (out : Word) : jumpTaken j out = true ↔ Taken j out := by
  simp [jumpTaken, Taken, isNeg_iff, isZero_iff, isPos_iff, or_assoc]

/-! ### The effect of an executed C-instruction -/

theorem afterC_writes (s : State) (c : Comp) (d : Dest) (j : Jump) : Writes (aluOut c s) d s (s.afterC c d j) := by
  constructor
  · simp [State.afterC, aluOut]
  · simp [State.afterC, aluOut]
  · intro hM; simp [State.afterC, aluOut, hM, Memory.read_write]
  · intro i hi
    cases hM : d.toM
    · simp [State.afterC, hM]
    · simp [State.afterC, hM, Memory.read_write, hi hM]
  · simp [State.afterC]
  · simp [State.afterC]

theorem afterC_continues (s : State) (c : Comp) (d : Dest) (j : Jump) :
    Continues (Taken j (aluOut c s)) s (s.afterC c d j) := by
  constructor
  · intro h hp
    rw [← jumpTaken_iff] at h
    simp only [aluOut] at h
    simp [State.afterC, State.finishJump_pc, h, State.jumpTarget, hp]
  · intro h hp
    rw [← jumpTaken_iff] at h
    simp only [aluOut] at h
    simp [State.afterC, State.finishJump_pc, h, State.jumpTarget, hp]
  · intro h
    rw [← jumpTaken_iff] at h
    simp only [aluOut] at h
    simp [State.afterC, State.finishJump_pc, h]

/-- A C row whose comp is executed does what the rules say. -/
theorem does_of_cFields? {i : Instr} {f : CFields} (h : i.cFields? = some f) {s : State} (hx : Executed f.comp s) :
    Does i s (aluOut f.comp s) f.dest (Taken f.jump (aluOut f.comp s)) :=
  ⟨_, (exec_of_cFields? h s).trans (execC_of_executed hx f.dest f.jump), afterC_writes s _ _ _,
    afterC_continues s _ _ _⟩

/-! ### One step -/

theorem step_of_fetch {s : State} {w : Word} (h : s.fetch = some w) : step s = exec (decode w) s := by
  unfold step; rw [h]

theorem step_of_stuck {s : State} (h : Stuck s) : step s = .fault .stuck := by
  have : s.fetch = none := List.getElem?_eq_none h
  unfold step; rw [this]

theorem fetch_of_not_stuck {s : State} (h : ¬ Stuck s) : ∃ w, s.fetch = some w :=
  ⟨_, List.getElem?_eq_getElem (Nat.lt_of_not_le h)⟩

/-- All that a step can do: load A, skip, or execute a C-instruction. -/
theorem step_cases {s t : State} (h : step s = .next t) :
    (∃ w, s.fetch = some w) ∧
    ((∃ v : BitVec 15, t = (s.setA (v.zeroExtend 16)).nextPc) ∨ t = s.nextPc ∨ ∃ c d j, t = s.afterC c d j) := by
  unfold step at h
  split at h
  · next w hw =>
    refine ⟨⟨w, hw⟩, ?_⟩
    obtain ⟨v, hv⟩ | ⟨f, hf, -⟩ := (decode w).kind
    · rw [hv, exec_atValue] at h
      exact .inl ⟨v, (Host.Outcome.next.inj h).symm⟩
    · rw [exec_of_cFields? hf] at h
      obtain ⟨-, he⟩ | ⟨-, he⟩ := execC_cases f.comp f.dest f.jump s
      · exact .inr (.inl (Host.Outcome.next.inj (h.symm.trans he)))
      · exact .inr (.inr ⟨_, _, _, Host.Outcome.next.inj (h.symm.trans he)⟩)
  · cases h

/-! ### Several steps -/

theorem stepN_of_stuck {s : State} (h : Stuck s) (n : Nat) : stepN n s = s := by
  cases n with
  | zero => rfl
  | succ n => simp [stepN, step_of_stuck h]

theorem stepN_succ_of_next {s t : State} (h : step s = .next t) (n : Nat) : stepN (n + 1) s = stepN n t := by
  simp [stepN, h]

end Sys2Proof.Machine
end

