-- ==== Sys2Proof/Laws/Host.lean ====
section
/-! SUPPORT. What the host's operations do: the lines of a text, an accepted load, the keyboard, the halt loop's jump. -/

namespace Sys2Proof.Machine

/-! ### Lines -/

theorem splitLines_append (l t : List Char) (h : ∀ c ∈ l, c ≠ '\n') :
    splitLines (l ++ '\n' :: t) = l :: splitLines t := by
  induction l with
  | nil => simp [splitLines]
  | cons c l ih =>
    have hc : c ≠ '\n' := h c (by simp)
    have := ih (fun x hx => h x (by simp [hx]))
    simp [splitLines, hc, this]

theorem splitLines_line (l : List Char) (h : ∀ c ∈ l, c ≠ '\n') : splitLines l = [l] := by
  induction l with
  | nil => rfl
  | cons c l ih =>
    have hc : c ≠ '\n' := h c (by simp)
    have := ih (fun x hx => h x (by simp [hx]))
    simp [splitLines, hc, this]

theorem romLine_chars (w : Word) : ∀ c ∈ romLine w, c ≠ '\n' := by
  intro c hc
  simp only [romLine, List.mem_map] at hc
  obtain ⟨i, -, rfl⟩ := hc
  split <;> decide

theorem romLine_length (w : Word) : (romLine w).length = 16 := by simp [romLine]

theorem splitLines_romText (ws : List Word) : splitLines (romText ws) = ws.map romLine ++ [[]] := by
  induction ws with
  | nil => rfl
  | cons w ws ih => rw [romText, splitLines_append _ _ (romLine_chars w), ih]; rfl

theorem romText_ne (w ws) : romText (w :: ws) ≠ [] := by simp [romText]

theorem romLines_romText (ws : List Word) : romLines (romText ws) = ws.map romLine := by
  unfold romLines
  split
  · next h => cases ws with
    | nil => rfl
    | cons w ws => exact absurd h (romText_ne _ _)
  · simp [splitLines_romText]

/-! ### load_rom -/

theorem parseRom_length {text : List Char} {ws : List Word} (h : parseRom text = .ok ws) : ws.length ≤ romMax := by
  unfold parseRom at h
  split at h
  · cases h
  · split at h
    · next hl => cases h; exact hl
    · cases h

/-- An accepted load leaves the launch state of the text's words, and nothing else can come of a load. -/
theorem loadRom_cases {cfg : Config} {text : List Char} {s : State} (h : loadRom cfg text = .ok s) :
    ∃ ws, parseRom text = .ok ws ∧ ws.length ≤ romMax ∧ s = State.launch cfg ws := by
  unfold loadRom at h
  split at h
  · cases h
  · next ws hp => exact ⟨ws, hp, parseRom_length hp, (Except.ok.inj h).symm⟩

/-! ### set_keyboard -/

theorem setKeyboard_ram (code : Int) (s : State) :
    (setKeyboard code s).ram = s.ram.write keyboardCell (BitVec.ofInt 16 code) := rfl

/-! ### Halt loops -/

theorem isHaltJump_iff (v : Word) :
    isHaltJump v = true ↔ ∃ u r, v = CFields.toWord ⟨u, CompRow.comp r, .none, .JMP⟩ := by
  unfold isHaltJump
  simp only [Bool.and_eq_true, beq_iff_eq, Comp.documented_iff]
  constructor
  · rintro ⟨⟨⟨h15, hj⟩, hd⟩, r, hr⟩
    refine ⟨(CFields.ofWord v).unused, r, ?_⟩
    rw [← hj, ← hd, hr]
    exact (CFields.toWord_ofWord h15).symm
  · rintro ⟨u, r, rfl⟩
    rw [CFields.ofWord_toWord]
    exact ⟨⟨⟨CFields.toWord_bit15 _, rfl⟩, rfl⟩, r, rfl⟩

end Sys2Proof.Machine
end

