-- ==== Sys2Proof/Laws/PerInstr.lean ====
section
/-! SUPPORT. Statements made of every instruction, one lemma per constructor. -/

namespace Sys2Proof.Laws.MatchesRow

/-- The word of the instruction matches the row of spec/opcode_table.json that its constructor stands for (30_encoding.md
R68). -/
def Statement (i : Instr) : Prop :=
  i.opcodeRow.matchesWord (encode i) = true

/-- Bits 15, 12 and 11..6 of a C word are its comp's alone. -/
theorem toWord_and_comp (f : CFields) :
    f.toWord &&& 0x9FC0#16 = CFields.toWord ⟨0#2, f.comp, Dest.none, Jump.none⟩ := by
  apply BitVec.eq_of_getLsbD_eq
  intro i hi
  interval_cases i <;> simp [CFields.toWord, Dest.code, Jump.code, Dest.none, Jump.none]

/-- Bits 15 and 5..3 of a C word are its destination's alone. -/
theorem toWord_and_dest (f : CFields) :
    f.toWord &&& 0x8038#16 = 0x8000#16 ||| f.dest.code.zeroExtend 16 <<< 3 := by
  apply BitVec.eq_of_getLsbD_eq
  intro i hi
  interval_cases i <;> simp [CFields.toWord]

/-- Bits 15 and 2..0 of a C word are its jump's alone. -/
theorem toWord_and_jump (f : CFields) :
    f.toWord &&& 0x8007#16 = 0x8000#16 ||| f.jump.code.zeroExtend 16 := by
  apply BitVec.eq_of_getLsbD_eq
  intro i hi
  interval_cases i <;> simp [CFields.toWord]

theorem of_comp {i : Instr} {f : CFields} {p : Word} (hf : i.cFields? = some f) (hr : i.opcodeRow = ⟨0x9FC0#16, p⟩)
    (hp : CFields.toWord ⟨0#2, f.comp, Dest.none, Jump.none⟩ = p) : Statement i := by
  rw [Statement, hr, encode_of_cFields? hf, OpcodeRow.matchesWord, toWord_and_comp, hp, beq_self_eq_true]

theorem of_dest {i : Instr} {f : CFields} {p : Word} (hf : i.cFields? = some f) (hr : i.opcodeRow = ⟨0x8038#16, p⟩)
    (hp : 0x8000#16 ||| f.dest.code.zeroExtend 16 <<< 3 = p) : Statement i := by
  rw [Statement, hr, encode_of_cFields? hf, OpcodeRow.matchesWord, toWord_and_dest, hp, beq_self_eq_true]

theorem of_jump {i : Instr} {f : CFields} {p : Word} (hf : i.cFields? = some f) (hr : i.opcodeRow = ⟨0x8007#16, p⟩)
    (hp : 0x8000#16 ||| f.jump.code.zeroExtend 16 = p) : Statement i := by
  rw [Statement, hr, encode_of_cFields? hf, OpcodeRow.matchesWord, toWord_and_jump, hp, beq_self_eq_true]

theorem atValue (v : BitVec 15) : Statement (.atValue v) := by
  rw [Statement, OpcodeRow.matchesWord, beq_iff_eq]
  apply BitVec.eq_of_getLsbD_eq
  intro i hi
  interval_cases i <;> simp [encode, Instr.opcodeRow]

theorem cGeneric (u : BitVec 2) (c : Comp) (d : Dest) (j : Jump) : Statement (.cGeneric u c d j) := by
  rw [Statement, OpcodeRow.matchesWord, beq_iff_eq]
  apply BitVec.eq_of_getLsbD_eq
  intro i hi
  interval_cases i <;> simp [encode, Instr.cFields?, Instr.opcodeRow, CFields.toWord]

theorem comp0 (u : BitVec 2) (d : Dest) (j : Jump) : Statement (.comp0 u d j) :=
  of_comp rfl rfl (by dsimp only; decide)

theorem comp1 (u : BitVec 2) (d : Dest) (j : Jump) : Statement (.comp1 u d j) :=
  of_comp rfl rfl (by dsimp only; decide)

theorem compNeg1 (u : BitVec 2) (d : Dest) (j : Jump) : Statement (.compNeg1 u d j) :=
  of_comp rfl rfl (by dsimp only; decide)

theorem compD (u : BitVec 2) (d : Dest) (j : Jump) : Statement (.compD u d j) :=
  of_comp rfl rfl (by dsimp only; decide)

theorem compA (u : BitVec 2) (d : Dest) (j : Jump) : Statement (.compA u d j) :=
  of_comp rfl rfl (by dsimp only; decide)

theorem compNotD (u : BitVec 2) (d : Dest) (j : Jump) : Statement (.compNotD u d j) :=
  of_comp rfl rfl (by dsimp only; decide)

theorem compNotA (u : BitVec 2) (d : Dest) (j : Jump) : Statement (.compNotA u d j) :=
  of_comp rfl rfl (by dsimp only; decide)

theorem compNegD (u : BitVec 2) (d : Dest) (j : Jump) : Statement (.compNegD u d j) :=
  of_comp rfl rfl (by dsimp only; decide)

theorem compNegA (u : BitVec 2) (d : Dest) (j : Jump) : Statement (.compNegA u d j) :=
  of_comp rfl rfl (by dsimp only; decide)

theorem compDPlus1 (u : BitVec 2) (d : Dest) (j : Jump) : Statement (.compDPlus1 u d j) :=
  of_comp rfl rfl (by dsimp only; decide)

theorem compAPlus1 (u : BitVec 2) (d : Dest) (j : Jump) : Statement (.compAPlus1 u d j) :=
  of_comp rfl rfl (by dsimp only; decide)

theorem compDMinus1 (u : BitVec 2) (d : Dest) (j : Jump) : Statement (.compDMinus1 u d j) :=
  of_comp rfl rfl (by dsimp only; decide)

theorem compAMinus1 (u : BitVec 2) (d : Dest) (j : Jump) : Statement (.compAMinus1 u d j) :=
  of_comp rfl rfl (by dsimp only; decide)

theorem compDPlusA (u : BitVec 2) (d : Dest) (j : Jump) : Statement (.compDPlusA u d j) :=
  of_comp rfl rfl (by dsimp only; decide)

theorem compDMinusA (u : BitVec 2) (d : Dest) (j : Jump) : Statement (.compDMinusA u d j) :=
  of_comp rfl rfl (by dsimp only; decide)

theorem compAMinusD (u : BitVec 2) (d : Dest) (j : Jump) : Statement (.compAMinusD u d j) :=
  of_comp rfl rfl (by dsimp only; decide)

theorem compDAndA (u : BitVec 2) (d : Dest) (j : Jump) : Statement (.compDAndA u d j) :=
  of_comp rfl rfl (by dsimp only; decide)

theorem compDOrA (u : BitVec 2) (d : Dest) (j : Jump) : Statement (.compDOrA u d j) :=
  of_comp rfl rfl (by dsimp only; decide)

theorem compM (u : BitVec 2) (d : Dest) (j : Jump) : Statement (.compM u d j) :=
  of_comp rfl rfl (by dsimp only; decide)

theorem compNotM (u : BitVec 2) (d : Dest) (j : Jump) : Statement (.compNotM u d j) :=
  of_comp rfl rfl (by dsimp only; decide)

theorem compNegM (u : BitVec 2) (d : Dest) (j : Jump) : Statement (.compNegM u d j) :=
  of_comp rfl rfl (by dsimp only; decide)

theorem compMPlus1 (u : BitVec 2) (d : Dest) (j : Jump) : Statement (.compMPlus1 u d j) :=
  of_comp rfl rfl (by dsimp only; decide)

theorem compMMinus1 (u : BitVec 2) (d : Dest) (j : Jump) : Statement (.compMMinus1 u d j) :=
  of_comp rfl rfl (by dsimp only; decide)

theorem compDPlusM (u : BitVec 2) (d : Dest) (j : Jump) : Statement (.compDPlusM u d j) :=
  of_comp rfl rfl (by dsimp only; decide)

theorem compDMinusM (u : BitVec 2) (d : Dest) (j : Jump) : Statement (.compDMinusM u d j) :=
  of_comp rfl rfl (by dsimp only; decide)

theorem compMMinusD (u : BitVec 2) (d : Dest) (j : Jump) : Statement (.compMMinusD u d j) :=
  of_comp rfl rfl (by dsimp only; decide)

theorem compDAndM (u : BitVec 2) (d : Dest) (j : Jump) : Statement (.compDAndM u d j) :=
  of_comp rfl rfl (by dsimp only; decide)

theorem compDOrM (u : BitVec 2) (d : Dest) (j : Jump) : Statement (.compDOrM u d j) :=
  of_comp rfl rfl (by dsimp only; decide)

theorem destNull (u : BitVec 2) (c : Comp) (j : Jump) : Statement (.destNull u c j) :=
  of_dest rfl rfl (by dsimp only; decide)

theorem destM (u : BitVec 2) (c : Comp) (j : Jump) : Statement (.destM u c j) :=
  of_dest rfl rfl (by dsimp only; decide)

theorem destD (u : BitVec 2) (c : Comp) (j : Jump) : Statement (.destD u c j) :=
  of_dest rfl rfl (by dsimp only; decide)

theorem destMD (u : BitVec 2) (c : Comp) (j : Jump) : Statement (.destMD u c j) :=
  of_dest rfl rfl (by dsimp only; decide)

theorem destA (u : BitVec 2) (c : Comp) (j : Jump) : Statement (.destA u c j) :=
  of_dest rfl rfl (by dsimp only; decide)

theorem destAM (u : BitVec 2) (c : Comp) (j : Jump) : Statement (.destAM u c j) :=
  of_dest rfl rfl (by dsimp only; decide)

theorem destAD (u : BitVec 2) (c : Comp) (j : Jump) : Statement (.destAD u c j) :=
  of_dest rfl rfl (by dsimp only; decide)

theorem destAMD (u : BitVec 2) (c : Comp) (j : Jump) : Statement (.destAMD u c j) :=
  of_dest rfl rfl (by dsimp only; decide)

theorem jumpNull (u : BitVec 2) (c : Comp) (d : Dest) : Statement (.jumpNull u c d) :=
  of_jump rfl rfl (by dsimp only; decide)

theorem jumpJGT (u : BitVec 2) (c : Comp) (d : Dest) : Statement (.jumpJGT u c d) :=
  of_jump rfl rfl (by dsimp only; decide)

theorem jumpJEQ (u : BitVec 2) (c : Comp) (d : Dest) : Statement (.jumpJEQ u c d) :=
  of_jump rfl rfl (by dsimp only; decide)

theorem jumpJGE (u : BitVec 2) (c : Comp) (d : Dest) : Statement (.jumpJGE u c d) :=
  of_jump rfl rfl (by dsimp only; decide)

theorem jumpJLT (u : BitVec 2) (c : Comp) (d : Dest) : Statement (.jumpJLT u c d) :=
  of_jump rfl rfl (by dsimp only; decide)

theorem jumpJNE (u : BitVec 2) (c : Comp) (d : Dest) : Statement (.jumpJNE u c d) :=
  of_jump rfl rfl (by dsimp only; decide)

theorem jumpJLE (u : BitVec 2) (c : Comp) (d : Dest) : Statement (.jumpJLE u c d) :=
  of_jump rfl rfl (by dsimp only; decide)

theorem jumpJMP (u : BitVec 2) (c : Comp) (d : Dest) : Statement (.jumpJMP u c d) :=
  of_jump rfl rfl (by dsimp only; decide)

end Sys2Proof.Laws.MatchesRow
end

