-- ==== Sys2Proof/Tests/Slice0.lean ====
section
/-! SUPPORT. Tests on fixed values, and for each obligation with hypotheses a witness that meets them. The expected
results are those of spec/95_test_vectors.md (the section is named at each group) or are worked out by hand from the
rule named. -/

namespace Sys2Proof.Tests

open Sys2Proof.Machine Sys2Proof.Safety

/-! ### Helpers -/

/-- A state with these registers and RAM entries, and a ROM of zero words. -/
def st (a d pc : Word) (ram : Memory) : State :=
  { State.reset with regA := a, regD := d, pc := pc, ram := ram, rom := List.replicate 12 0#16 }

/-- What the CPU can change. -/
structure View where
  a   : Word
  d   : Word
  pc  : Word
  ram : Memory
  deriving DecidableEq, Repr

/-- The next state, if there is one. -/
def shown : Host.Outcome State Fault Refusal → Option View
  | .next t => some ⟨t.regA, t.regD, t.pc, t.ram⟩
  | .fault _ => none
  | .refused _ => none

def dOf (x : Host.Outcome State Fault Refusal) : Option Word :=
  (shown x).map View.d

def pcOf (x : Host.Outcome State Fault Refusal) : Option Word :=
  (shown x).map View.pc

/-- One step on the word `w`, placed where `s` fetches. -/
def run (w : Word) (s : State) : Option View :=
  shown (step (s.withFetchWord 16 w.toNat))

def pre (s : State) : State := { s with cfg := { s.cfg with jumpASample := .pre } }
def nop (s : State) : State := { s with cfg := { s.cfg with undocComp := .nop } }

/-! ### Decoding of words written out bit by bit (30_encoding.md tables R51, R52, R55 to R57) -/

theorem test_decode_atValue : decode 0b0110000000000000#16 = .atValue 24576#15 := by decide

theorem test_decode_cGeneric : decode 0b1110000001111111#16 = .cGeneric 3#2 ⟨.regA, ⟨false, false, false, false, false, true⟩⟩ .AMD .JMP := by decide

theorem test_decode_comp0 : decode 0b1110101010000000#16 = .comp0 3#2 .none .none := by decide

theorem test_decode_comp1 : decode 0b1110111111000000#16 = .comp1 3#2 .none .none := by decide

theorem test_decode_compNeg1 : decode 0b1110111010000000#16 = .compNeg1 3#2 .none .none := by decide

theorem test_decode_compD : decode 0b1110001100000000#16 = .compD 3#2 .none .none := by decide

theorem test_decode_compA : decode 0b1110110000000000#16 = .compA 3#2 .none .none := by decide

theorem test_decode_compNotD : decode 0b1110001101000000#16 = .compNotD 3#2 .none .none := by decide

theorem test_decode_compNotA : decode 0b1110110001000000#16 = .compNotA 3#2 .none .none := by decide

theorem test_decode_compNegD : decode 0b1110001111000000#16 = .compNegD 3#2 .none .none := by decide

theorem test_decode_compNegA : decode 0b1110110011000000#16 = .compNegA 3#2 .none .none := by decide

theorem test_decode_compDPlus1 : decode 0b1110011111000000#16 = .compDPlus1 3#2 .none .none := by decide

theorem test_decode_compAPlus1 : decode 0b1110110111000000#16 = .compAPlus1 3#2 .none .none := by decide

theorem test_decode_compDMinus1 : decode 0b1110001110000000#16 = .compDMinus1 3#2 .none .none := by decide

theorem test_decode_compAMinus1 : decode 0b1110110010000000#16 = .compAMinus1 3#2 .none .none := by decide

theorem test_decode_compDPlusA : decode 0b1110000010000000#16 = .compDPlusA 3#2 .none .none := by decide

theorem test_decode_compDMinusA : decode 0b1110010011000000#16 = .compDMinusA 3#2 .none .none := by decide

theorem test_decode_compAMinusD : decode 0b1110000111000000#16 = .compAMinusD 3#2 .none .none := by decide

theorem test_decode_compDAndA : decode 0b1110000000000000#16 = .compDAndA 3#2 .none .none := by decide

theorem test_decode_compDOrA : decode 0b1110010101000000#16 = .compDOrA 3#2 .none .none := by decide

theorem test_decode_compM : decode 0b1111110000000000#16 = .compM 3#2 .none .none := by decide

theorem test_decode_compNotM : decode 0b1111110001000000#16 = .compNotM 3#2 .none .none := by decide

theorem test_decode_compNegM : decode 0b1111110011000000#16 = .compNegM 3#2 .none .none := by decide

theorem test_decode_compMPlus1 : decode 0b1111110111000000#16 = .compMPlus1 3#2 .none .none := by decide

theorem test_decode_compMMinus1 : decode 0b1111110010000000#16 = .compMMinus1 3#2 .none .none := by decide

theorem test_decode_compDPlusM : decode 0b1111000010000000#16 = .compDPlusM 3#2 .none .none := by decide

theorem test_decode_compDMinusM : decode 0b1111010011000000#16 = .compDMinusM 3#2 .none .none := by decide

theorem test_decode_compMMinusD : decode 0b1111000111000000#16 = .compMMinusD 3#2 .none .none := by decide

theorem test_decode_compDAndM : decode 0b1111000000000000#16 = .compDAndM 3#2 .none .none := by decide

theorem test_decode_compDOrM : decode 0b1111010101000000#16 = .compDOrM 3#2 .none .none := by decide

theorem test_decode_destNull : decode 0b1110000001000000#16 = .destNull 3#2 ⟨.regA, ⟨false, false, false, false, false, true⟩⟩ .none := by decide

theorem test_decode_destM : decode 0b1110011111001000#16 = .destM 3#2 CompRow.dPlus1.comp .none := by decide

theorem test_decode_destD : decode 0b1110011111010000#16 = .destD 3#2 CompRow.dPlus1.comp .none := by decide

theorem test_decode_destMD : decode 0b1110011111011000#16 = .destMD 3#2 CompRow.dPlus1.comp .none := by decide

theorem test_decode_destA : decode 0b1110011111100000#16 = .destA 3#2 CompRow.dPlus1.comp .none := by decide

theorem test_decode_destAM : decode 0b1110011111101000#16 = .destAM 3#2 CompRow.dPlus1.comp .none := by decide

theorem test_decode_destAD : decode 0b1110011111110000#16 = .destAD 3#2 CompRow.dPlus1.comp .none := by decide

theorem test_decode_destAMD : decode 0b1110011111111000#16 = .destAMD 3#2 CompRow.dPlus1.comp .none := by decide

theorem test_decode_jumpNull : decode 0b1111000001000000#16 = .jumpNull 3#2 ⟨.memM, ⟨false, false, false, false, false, true⟩⟩ .none := by decide

theorem test_decode_jumpJGT : decode 0b1110001100000001#16 = .jumpJGT 3#2 CompRow.d.comp .none := by decide

theorem test_decode_jumpJEQ : decode 0b1110001100000010#16 = .jumpJEQ 3#2 CompRow.d.comp .none := by decide

theorem test_decode_jumpJGE : decode 0b1110001100000011#16 = .jumpJGE 3#2 CompRow.d.comp .none := by decide

theorem test_decode_jumpJLT : decode 0b1110001100000100#16 = .jumpJLT 3#2 CompRow.d.comp .none := by decide

theorem test_decode_jumpJNE : decode 0b1110001100000101#16 = .jumpJNE 3#2 CompRow.d.comp .none := by decide

theorem test_decode_jumpJLE : decode 0b1110001100000110#16 = .jumpJLE 3#2 CompRow.d.comp .none := by decide

theorem test_decode_jumpJMP : decode 0b1110001100000111#16 = .jumpJMP 3#2 CompRow.d.comp .none := by decide

/-- Bits 14..13 are carried, not refused (95_test_vectors.md section 2.7). -/
theorem test_decode_unused_bits :
    decode 0b1000110000010000#16 = .destD 0#2 CompRow.a.comp .none ∧
    decode 0b1010110000010000#16 = .destD 1#2 CompRow.a.comp .none ∧
    decode 0b1100110000010000#16 = .destD 2#2 CompRow.a.comp .none ∧
    decode 0b1001110000010000#16 = .destD 0#2 CompRow.m.comp .none := by decide

/-- The operand word given to the interface is cut to its row's bits; longer rows are refused. -/
theorem test_decode_table_word :
    decodeTableWord 16 0xEC10 = some (.destD 3#2 CompRow.a.comp .none) ∧
    decodeTableWord 16 0x18C10 = some (.destD 0#2 CompRow.a.comp .none) ∧ decodeTableWord 32 0xEC10 = none := by decide

/-! ### Ill-formed terms: each check refuses one, and takes its neighbour -/

theorem test_wellFormed_cGeneric :
    (Instr.cGeneric 3#2 CompRow.d.comp .A .JMP).wellFormed = false ∧
    (Instr.cGeneric 3#2 ⟨.regA, ⟨false, false, false, false, false, true⟩⟩ .none .JMP).wellFormed = false ∧
    (Instr.cGeneric 3#2 ⟨.regA, ⟨false, false, false, false, false, true⟩⟩ .A .none).wellFormed = false ∧
    (Instr.cGeneric 3#2 ⟨.regA, ⟨false, false, false, false, false, true⟩⟩ .A .JMP).wellFormed = true := by decide

theorem test_wellFormed_comp_rows_refuse_a_write_without_a_jump :
    (Instr.comp0 3#2 .D .none).wellFormed = false ∧
    (Instr.comp1 3#2 .D .none).wellFormed = false ∧
    (Instr.compNeg1 3#2 .D .none).wellFormed = false ∧
    (Instr.compD 3#2 .D .none).wellFormed = false ∧
    (Instr.compA 3#2 .D .none).wellFormed = false ∧
    (Instr.compNotD 3#2 .D .none).wellFormed = false ∧
    (Instr.compNotA 3#2 .D .none).wellFormed = false ∧
    (Instr.compNegD 3#2 .D .none).wellFormed = false ∧
    (Instr.compNegA 3#2 .D .none).wellFormed = false ∧
    (Instr.compDPlus1 3#2 .D .none).wellFormed = false ∧
    (Instr.compAPlus1 3#2 .D .none).wellFormed = false ∧
    (Instr.compDMinus1 3#2 .D .none).wellFormed = false ∧
    (Instr.compAMinus1 3#2 .D .none).wellFormed = false ∧
    (Instr.compDPlusA 3#2 .D .none).wellFormed = false ∧
    (Instr.compDMinusA 3#2 .D .none).wellFormed = false ∧
    (Instr.compAMinusD 3#2 .D .none).wellFormed = false ∧
    (Instr.compDAndA 3#2 .D .none).wellFormed = false ∧
    (Instr.compDOrA 3#2 .D .none).wellFormed = false ∧
    (Instr.compM 3#2 .D .none).wellFormed = false ∧
    (Instr.compNotM 3#2 .D .none).wellFormed = false ∧
    (Instr.compNegM 3#2 .D .none).wellFormed = false ∧
    (Instr.compMPlus1 3#2 .D .none).wellFormed = false ∧
    (Instr.compMMinus1 3#2 .D .none).wellFormed = false ∧
    (Instr.compDPlusM 3#2 .D .none).wellFormed = false ∧
    (Instr.compDMinusM 3#2 .D .none).wellFormed = false ∧
    (Instr.compMMinusD 3#2 .D .none).wellFormed = false ∧
    (Instr.compDAndM 3#2 .D .none).wellFormed = false ∧
    (Instr.compDOrM 3#2 .D .none).wellFormed = false := by decide

theorem test_wellFormed_comp_rows_refuse_a_jump_without_a_write :
    (Instr.comp0 3#2 .none .JMP).wellFormed = false ∧
    (Instr.comp1 3#2 .none .JMP).wellFormed = false ∧
    (Instr.compNeg1 3#2 .none .JMP).wellFormed = false ∧
    (Instr.compD 3#2 .none .JMP).wellFormed = false ∧
    (Instr.compA 3#2 .none .JMP).wellFormed = false ∧
    (Instr.compNotD 3#2 .none .JMP).wellFormed = false ∧
    (Instr.compNotA 3#2 .none .JMP).wellFormed = false ∧
    (Instr.compNegD 3#2 .none .JMP).wellFormed = false ∧
    (Instr.compNegA 3#2 .none .JMP).wellFormed = false ∧
    (Instr.compDPlus1 3#2 .none .JMP).wellFormed = false ∧
    (Instr.compAPlus1 3#2 .none .JMP).wellFormed = false ∧
    (Instr.compDMinus1 3#2 .none .JMP).wellFormed = false ∧
    (Instr.compAMinus1 3#2 .none .JMP).wellFormed = false ∧
    (Instr.compDPlusA 3#2 .none .JMP).wellFormed = false ∧
    (Instr.compDMinusA 3#2 .none .JMP).wellFormed = false ∧
    (Instr.compAMinusD 3#2 .none .JMP).wellFormed = false ∧
    (Instr.compDAndA 3#2 .none .JMP).wellFormed = false ∧
    (Instr.compDOrA 3#2 .none .JMP).wellFormed = false ∧
    (Instr.compM 3#2 .none .JMP).wellFormed = false ∧
    (Instr.compNotM 3#2 .none .JMP).wellFormed = false ∧
    (Instr.compNegM 3#2 .none .JMP).wellFormed = false ∧
    (Instr.compMPlus1 3#2 .none .JMP).wellFormed = false ∧
    (Instr.compMMinus1 3#2 .none .JMP).wellFormed = false ∧
    (Instr.compDPlusM 3#2 .none .JMP).wellFormed = false ∧
    (Instr.compDMinusM 3#2 .none .JMP).wellFormed = false ∧
    (Instr.compMMinusD 3#2 .none .JMP).wellFormed = false ∧
    (Instr.compDAndM 3#2 .none .JMP).wellFormed = false ∧
    (Instr.compDOrM 3#2 .none .JMP).wellFormed = false := by decide

theorem test_wellFormed_comp_rows_take_both_or_neither :
    (Instr.comp0 3#2 .D .JGT).wellFormed = true ∧ (Instr.comp0 3#2 .none .none).wellFormed = true ∧
    (Instr.comp1 3#2 .D .JGT).wellFormed = true ∧ (Instr.comp1 3#2 .none .none).wellFormed = true ∧
    (Instr.compNeg1 3#2 .D .JGT).wellFormed = true ∧ (Instr.compNeg1 3#2 .none .none).wellFormed = true ∧
    (Instr.compD 3#2 .D .JGT).wellFormed = true ∧ (Instr.compD 3#2 .none .none).wellFormed = true ∧
    (Instr.compA 3#2 .D .JGT).wellFormed = true ∧ (Instr.compA 3#2 .none .none).wellFormed = true ∧
    (Instr.compNotD 3#2 .D .JGT).wellFormed = true ∧ (Instr.compNotD 3#2 .none .none).wellFormed = true ∧
    (Instr.compNotA 3#2 .D .JGT).wellFormed = true ∧ (Instr.compNotA 3#2 .none .none).wellFormed = true ∧
    (Instr.compNegD 3#2 .D .JGT).wellFormed = true ∧ (Instr.compNegD 3#2 .none .none).wellFormed = true ∧
    (Instr.compNegA 3#2 .D .JGT).wellFormed = true ∧ (Instr.compNegA 3#2 .none .none).wellFormed = true ∧
    (Instr.compDPlus1 3#2 .D .JGT).wellFormed = true ∧ (Instr.compDPlus1 3#2 .none .none).wellFormed = true ∧
    (Instr.compAPlus1 3#2 .D .JGT).wellFormed = true ∧ (Instr.compAPlus1 3#2 .none .none).wellFormed = true ∧
    (Instr.compDMinus1 3#2 .D .JGT).wellFormed = true ∧ (Instr.compDMinus1 3#2 .none .none).wellFormed = true ∧
    (Instr.compAMinus1 3#2 .D .JGT).wellFormed = true ∧ (Instr.compAMinus1 3#2 .none .none).wellFormed = true ∧
    (Instr.compDPlusA 3#2 .D .JGT).wellFormed = true ∧ (Instr.compDPlusA 3#2 .none .none).wellFormed = true ∧
    (Instr.compDMinusA 3#2 .D .JGT).wellFormed = true ∧ (Instr.compDMinusA 3#2 .none .none).wellFormed = true ∧
    (Instr.compAMinusD 3#2 .D .JGT).wellFormed = true ∧ (Instr.compAMinusD 3#2 .none .none).wellFormed = true ∧
    (Instr.compDAndA 3#2 .D .JGT).wellFormed = true ∧ (Instr.compDAndA 3#2 .none .none).wellFormed = true ∧
    (Instr.compDOrA 3#2 .D .JGT).wellFormed = true ∧ (Instr.compDOrA 3#2 .none .none).wellFormed = true ∧
    (Instr.compM 3#2 .D .JGT).wellFormed = true ∧ (Instr.compM 3#2 .none .none).wellFormed = true ∧
    (Instr.compNotM 3#2 .D .JGT).wellFormed = true ∧ (Instr.compNotM 3#2 .none .none).wellFormed = true ∧
    (Instr.compNegM 3#2 .D .JGT).wellFormed = true ∧ (Instr.compNegM 3#2 .none .none).wellFormed = true ∧
    (Instr.compMPlus1 3#2 .D .JGT).wellFormed = true ∧ (Instr.compMPlus1 3#2 .none .none).wellFormed = true ∧
    (Instr.compMMinus1 3#2 .D .JGT).wellFormed = true ∧ (Instr.compMMinus1 3#2 .none .none).wellFormed = true ∧
    (Instr.compDPlusM 3#2 .D .JGT).wellFormed = true ∧ (Instr.compDPlusM 3#2 .none .none).wellFormed = true ∧
    (Instr.compDMinusM 3#2 .D .JGT).wellFormed = true ∧ (Instr.compDMinusM 3#2 .none .none).wellFormed = true ∧
    (Instr.compMMinusD 3#2 .D .JGT).wellFormed = true ∧ (Instr.compMMinusD 3#2 .none .none).wellFormed = true ∧
    (Instr.compDAndM 3#2 .D .JGT).wellFormed = true ∧ (Instr.compDAndM 3#2 .none .none).wellFormed = true ∧
    (Instr.compDOrM 3#2 .D .JGT).wellFormed = true ∧ (Instr.compDOrM 3#2 .none .none).wellFormed = true := by decide

theorem test_wellFormed_dest_rows_refuse_a_jump :
    (Instr.destM 3#2 CompRow.d.comp .JEQ).wellFormed = false ∧
    (Instr.destD 3#2 CompRow.d.comp .JEQ).wellFormed = false ∧
    (Instr.destMD 3#2 CompRow.d.comp .JEQ).wellFormed = false ∧
    (Instr.destA 3#2 CompRow.d.comp .JEQ).wellFormed = false ∧
    (Instr.destAM 3#2 CompRow.d.comp .JEQ).wellFormed = false ∧
    (Instr.destAD 3#2 CompRow.d.comp .JEQ).wellFormed = false ∧
    (Instr.destAMD 3#2 CompRow.d.comp .JEQ).wellFormed = false := by decide

theorem test_wellFormed_jump_rows_refuse_a_write :
    (Instr.jumpJGT 3#2 CompRow.d.comp .M).wellFormed = false ∧
    (Instr.jumpJEQ 3#2 CompRow.d.comp .M).wellFormed = false ∧
    (Instr.jumpJGE 3#2 CompRow.d.comp .M).wellFormed = false ∧
    (Instr.jumpJLT 3#2 CompRow.d.comp .M).wellFormed = false ∧
    (Instr.jumpJNE 3#2 CompRow.d.comp .M).wellFormed = false ∧
    (Instr.jumpJLE 3#2 CompRow.d.comp .M).wellFormed = false ∧
    (Instr.jumpJMP 3#2 CompRow.d.comp .M).wellFormed = false := by decide

theorem test_wellFormed_null_rows :
    (Instr.destNull 3#2 CompRow.d.comp .none).wellFormed = false ∧
    (Instr.destNull 3#2 ⟨.memM, ⟨false, false, false, false, false, true⟩⟩ .none).wellFormed = false ∧
    (Instr.destNull 3#2 ⟨.regA, ⟨false, false, false, false, false, true⟩⟩ .JMP).wellFormed = false ∧
    (Instr.destNull 3#2 ⟨.regA, ⟨false, false, false, false, false, true⟩⟩ .none).wellFormed = true ∧
    (Instr.jumpNull 3#2 CompRow.d.comp .none).wellFormed = false ∧
    (Instr.jumpNull 3#2 ⟨.regA, ⟨false, false, false, false, false, true⟩⟩ .none).wellFormed = false ∧
    (Instr.jumpNull 3#2 ⟨.memM, ⟨false, false, false, false, false, true⟩⟩ .M).wellFormed = false ∧
    (Instr.jumpNull 3#2 ⟨.memM, ⟨false, false, false, false, false, true⟩⟩ .none).wellFormed = true := by decide

/-! ### The A-instruction (95_test_vectors.md section 2.1) -/

theorem test_atValue_keeps_D :
    run 0x7FFF#16 (st 0x0000#16 0xABCD#16 3#16 []) = some ⟨0x7FFF#16, 0xABCD#16, 4#16, []⟩ := by decide

theorem test_atValue_zero :
    run 0x0000#16 (st 0xFFFF#16 0x0007#16 0#16 []) = some ⟨0x0000#16, 0x0007#16, 1#16, []⟩ := by decide

/-! ### Comps (95_test_vectors.md section 2.2, columns 5 and 7) -/

theorem test_comp0 :
    dOf (exec (.comp0 3#2 .D .none) (st 0x00FF#16 0x1234#16 0#16 [])) = some 0x0000#16 ∧
    dOf (exec (.comp0 3#2 .D .none) (st 0x0001#16 0x8000#16 0#16 [])) = some 0x0000#16 := by decide

theorem test_comp1 :
    dOf (exec (.comp1 3#2 .D .none) (st 0x00FF#16 0x1234#16 0#16 [])) = some 0x0001#16 ∧
    dOf (exec (.comp1 3#2 .D .none) (st 0x0001#16 0x8000#16 0#16 [])) = some 0x0001#16 := by decide

theorem test_compNeg1 :
    dOf (exec (.compNeg1 3#2 .D .none) (st 0x00FF#16 0x1234#16 0#16 [])) = some 0xFFFF#16 ∧
    dOf (exec (.compNeg1 3#2 .D .none) (st 0x0001#16 0x8000#16 0#16 [])) = some 0xFFFF#16 := by decide

theorem test_compD :
    dOf (exec (.compD 3#2 .D .none) (st 0x00FF#16 0x1234#16 0#16 [])) = some 0x1234#16 ∧
    dOf (exec (.compD 3#2 .D .none) (st 0x0001#16 0x8000#16 0#16 [])) = some 0x8000#16 := by decide

theorem test_compA :
    dOf (exec (.compA 3#2 .D .none) (st 0x00FF#16 0x1234#16 0#16 [])) = some 0x00FF#16 ∧
    dOf (exec (.compA 3#2 .D .none) (st 0x0001#16 0x8000#16 0#16 [])) = some 0x0001#16 := by decide

theorem test_compNotD :
    dOf (exec (.compNotD 3#2 .D .none) (st 0x00FF#16 0x1234#16 0#16 [])) = some 0xEDCB#16 ∧
    dOf (exec (.compNotD 3#2 .D .none) (st 0x0001#16 0x8000#16 0#16 [])) = some 0x7FFF#16 := by decide

theorem test_compNotA :
    dOf (exec (.compNotA 3#2 .D .none) (st 0x00FF#16 0x1234#16 0#16 [])) = some 0xFF00#16 ∧
    dOf (exec (.compNotA 3#2 .D .none) (st 0x0001#16 0x8000#16 0#16 [])) = some 0xFFFE#16 := by decide

theorem test_compNegD :
    dOf (exec (.compNegD 3#2 .D .none) (st 0x00FF#16 0x1234#16 0#16 [])) = some 0xEDCC#16 ∧
    dOf (exec (.compNegD 3#2 .D .none) (st 0x0001#16 0x8000#16 0#16 [])) = some 0x8000#16 := by decide

theorem test_compNegA :
    dOf (exec (.compNegA 3#2 .D .none) (st 0x00FF#16 0x1234#16 0#16 [])) = some 0xFF01#16 ∧
    dOf (exec (.compNegA 3#2 .D .none) (st 0x0001#16 0x8000#16 0#16 [])) = some 0xFFFF#16 := by decide

theorem test_compDPlus1 :
    dOf (exec (.compDPlus1 3#2 .D .none) (st 0x00FF#16 0x1234#16 0#16 [])) = some 0x1235#16 ∧
    dOf (exec (.compDPlus1 3#2 .D .none) (st 0x0001#16 0x8000#16 0#16 [])) = some 0x8001#16 := by decide

theorem test_compAPlus1 :
    dOf (exec (.compAPlus1 3#2 .D .none) (st 0x00FF#16 0x1234#16 0#16 [])) = some 0x0100#16 ∧
    dOf (exec (.compAPlus1 3#2 .D .none) (st 0x0001#16 0x8000#16 0#16 [])) = some 0x0002#16 := by decide

theorem test_compDMinus1 :
    dOf (exec (.compDMinus1 3#2 .D .none) (st 0x00FF#16 0x1234#16 0#16 [])) = some 0x1233#16 ∧
    dOf (exec (.compDMinus1 3#2 .D .none) (st 0x0001#16 0x8000#16 0#16 [])) = some 0x7FFF#16 := by decide

theorem test_compAMinus1 :
    dOf (exec (.compAMinus1 3#2 .D .none) (st 0x00FF#16 0x1234#16 0#16 [])) = some 0x00FE#16 ∧
    dOf (exec (.compAMinus1 3#2 .D .none) (st 0x0001#16 0x8000#16 0#16 [])) = some 0x0000#16 := by decide

theorem test_compDPlusA :
    dOf (exec (.compDPlusA 3#2 .D .none) (st 0x00FF#16 0x1234#16 0#16 [])) = some 0x1333#16 ∧
    dOf (exec (.compDPlusA 3#2 .D .none) (st 0x0001#16 0x8000#16 0#16 [])) = some 0x8001#16 := by decide

theorem test_compDMinusA :
    dOf (exec (.compDMinusA 3#2 .D .none) (st 0x00FF#16 0x1234#16 0#16 [])) = some 0x1135#16 ∧
    dOf (exec (.compDMinusA 3#2 .D .none) (st 0x0001#16 0x8000#16 0#16 [])) = some 0x7FFF#16 := by decide

theorem test_compAMinusD :
    dOf (exec (.compAMinusD 3#2 .D .none) (st 0x00FF#16 0x1234#16 0#16 [])) = some 0xEECB#16 ∧
    dOf (exec (.compAMinusD 3#2 .D .none) (st 0x0001#16 0x8000#16 0#16 [])) = some 0x8001#16 := by decide

theorem test_compDAndA :
    dOf (exec (.compDAndA 3#2 .D .none) (st 0x00FF#16 0x1234#16 0#16 [])) = some 0x0034#16 ∧
    dOf (exec (.compDAndA 3#2 .D .none) (st 0x0001#16 0x8000#16 0#16 [])) = some 0x0000#16 := by decide

theorem test_compDOrA :
    dOf (exec (.compDOrA 3#2 .D .none) (st 0x00FF#16 0x1234#16 0#16 [])) = some 0x12FF#16 ∧
    dOf (exec (.compDOrA 3#2 .D .none) (st 0x0001#16 0x8000#16 0#16 [])) = some 0x8001#16 := by decide

theorem test_compM :
    dOf (exec (.compM 3#2 .D .none) (st 5#16 0x1234#16 0#16 [(5, 0x00FF#16)])) = some 0x00FF#16 ∧
    dOf (exec (.compM 3#2 .D .none) (st 5#16 0x8000#16 0#16 [(5, 0x0001#16)])) = some 0x0001#16 := by decide

theorem test_compNotM :
    dOf (exec (.compNotM 3#2 .D .none) (st 5#16 0x1234#16 0#16 [(5, 0x00FF#16)])) = some 0xFF00#16 ∧
    dOf (exec (.compNotM 3#2 .D .none) (st 5#16 0x8000#16 0#16 [(5, 0x0001#16)])) = some 0xFFFE#16 := by decide

theorem test_compNegM :
    dOf (exec (.compNegM 3#2 .D .none) (st 5#16 0x1234#16 0#16 [(5, 0x00FF#16)])) = some 0xFF01#16 ∧
    dOf (exec (.compNegM 3#2 .D .none) (st 5#16 0x8000#16 0#16 [(5, 0x0001#16)])) = some 0xFFFF#16 := by decide

theorem test_compMPlus1 :
    dOf (exec (.compMPlus1 3#2 .D .none) (st 5#16 0x1234#16 0#16 [(5, 0x00FF#16)])) = some 0x0100#16 ∧
    dOf (exec (.compMPlus1 3#2 .D .none) (st 5#16 0x8000#16 0#16 [(5, 0x0001#16)])) = some 0x0002#16 := by decide

theorem test_compMMinus1 :
    dOf (exec (.compMMinus1 3#2 .D .none) (st 5#16 0x1234#16 0#16 [(5, 0x00FF#16)])) = some 0x00FE#16 ∧
    dOf (exec (.compMMinus1 3#2 .D .none) (st 5#16 0x8000#16 0#16 [(5, 0x0001#16)])) = some 0x0000#16 := by decide

theorem test_compDPlusM :
    dOf (exec (.compDPlusM 3#2 .D .none) (st 5#16 0x1234#16 0#16 [(5, 0x00FF#16)])) = some 0x1333#16 ∧
    dOf (exec (.compDPlusM 3#2 .D .none) (st 5#16 0x8000#16 0#16 [(5, 0x0001#16)])) = some 0x8001#16 := by decide

theorem test_compDMinusM :
    dOf (exec (.compDMinusM 3#2 .D .none) (st 5#16 0x1234#16 0#16 [(5, 0x00FF#16)])) = some 0x1135#16 ∧
    dOf (exec (.compDMinusM 3#2 .D .none) (st 5#16 0x8000#16 0#16 [(5, 0x0001#16)])) = some 0x7FFF#16 := by decide

theorem test_compMMinusD :
    dOf (exec (.compMMinusD 3#2 .D .none) (st 5#16 0x1234#16 0#16 [(5, 0x00FF#16)])) = some 0xEECB#16 ∧
    dOf (exec (.compMMinusD 3#2 .D .none) (st 5#16 0x8000#16 0#16 [(5, 0x0001#16)])) = some 0x8001#16 := by decide

theorem test_compDAndM :
    dOf (exec (.compDAndM 3#2 .D .none) (st 5#16 0x1234#16 0#16 [(5, 0x00FF#16)])) = some 0x0034#16 ∧
    dOf (exec (.compDAndM 3#2 .D .none) (st 5#16 0x8000#16 0#16 [(5, 0x0001#16)])) = some 0x0000#16 := by decide

theorem test_compDOrM :
    dOf (exec (.compDOrM 3#2 .D .none) (st 5#16 0x1234#16 0#16 [(5, 0x00FF#16)])) = some 0x12FF#16 ∧
    dOf (exec (.compDOrM 3#2 .D .none) (st 5#16 0x8000#16 0#16 [(5, 0x0001#16)])) = some 0x8001#16 := by decide

/-! ### Destinations: comp `D+1` (95_test_vectors.md section 2.3) -/

theorem test_destNull :
    shown (exec (.destNull 3#2 CompRow.dPlus1.comp .none) (st 0x0010#16 0x0004#16 0#16 [(16, 0x0009#16)])) =
      some ⟨0x0010#16, 0x0004#16, 1#16, [(16, 9#16)]⟩ := by decide

theorem test_destM :
    shown (exec (.destM 3#2 CompRow.dPlus1.comp .none) (st 0x0010#16 0x0004#16 0#16 [(16, 0x0009#16)])) =
      some ⟨0x0010#16, 0x0004#16, 1#16, [(16, 5#16)]⟩ := by decide

theorem test_destD :
    shown (exec (.destD 3#2 CompRow.dPlus1.comp .none) (st 0x0010#16 0x0004#16 0#16 [(16, 0x0009#16)])) =
      some ⟨0x0010#16, 0x0005#16, 1#16, [(16, 9#16)]⟩ := by decide

theorem test_destMD :
    shown (exec (.destMD 3#2 CompRow.dPlus1.comp .none) (st 0x0010#16 0x0004#16 0#16 [(16, 0x0009#16)])) =
      some ⟨0x0010#16, 0x0005#16, 1#16, [(16, 5#16)]⟩ := by decide

theorem test_destA :
    shown (exec (.destA 3#2 CompRow.dPlus1.comp .none) (st 0x0010#16 0x0004#16 0#16 [(16, 0x0009#16)])) =
      some ⟨0x0005#16, 0x0004#16, 1#16, [(16, 9#16)]⟩ := by decide

theorem test_destAM :
    shown (exec (.destAM 3#2 CompRow.dPlus1.comp .none) (st 0x0010#16 0x0004#16 0#16 [(16, 0x0009#16)])) =
      some ⟨0x0005#16, 0x0004#16, 1#16, [(16, 5#16)]⟩ := by decide

theorem test_destAD :
    shown (exec (.destAD 3#2 CompRow.dPlus1.comp .none) (st 0x0010#16 0x0004#16 0#16 [(16, 0x0009#16)])) =
      some ⟨0x0005#16, 0x0005#16, 1#16, [(16, 9#16)]⟩ := by decide

theorem test_destAMD :
    shown (exec (.destAMD 3#2 CompRow.dPlus1.comp .none) (st 0x0010#16 0x0004#16 0#16 [(16, 0x0009#16)])) =
      some ⟨0x0005#16, 0x0005#16, 1#16, [(16, 5#16)]⟩ := by decide

/-- `AM=M-1` -/
theorem test_destAM_addresses_by_the_old_A :
    run 0xFCA8#16 (st 0x0000#16 0#16 0#16 [(0, 0x0102#16)]) = some ⟨0x0101#16, 0#16, 1#16, [(0, 0x0101#16)]⟩ := by decide

/-- `AMD=M+1` -/
theorem test_destAMD_addresses_by_the_old_A :
    run 0xFDF8#16 (st 0x0010#16 4#16 0#16 [(10, 0x004D#16), (16, 0x0009#16)]) =
      some ⟨0x000A#16, 0x000A#16, 1#16, [(10, 0x004D#16), (16, 0x000A#16)]⟩ := by decide

/-- `M=D` -/
theorem test_destM_masks_the_address :
    run 0xE308#16 (st 0x8005#16 0xBEEF#16 0#16 []) = some ⟨0x8005#16, 0xBEEF#16, 1#16, [(5, 0xBEEF#16)]⟩ := by decide

/-- `D=M` -/
theorem test_destD_masks_the_read_address :
    run 0xFC10#16 (st 0xFFFF#16 0#16 0#16 [(32767, 0x1111#16)]) =
      some ⟨0xFFFF#16, 0x1111#16, 1#16, [(32767, 0x1111#16)]⟩ := by decide

/-- `MD=D+M` into the keyboard cell -/
theorem test_destMD_may_store_to_the_keyboard_cell :
    run 0xF098#16 (st 0xE000#16 1#16 0#16 [(24576, 2#16)]) = some ⟨0xE000#16, 3#16, 1#16, [(24576, 3#16)]⟩ := by decide

/-- `A=M` loads all 16 bits. -/
theorem test_destA_pointer_load :
    run 0xFC20#16 (st 3#16 0#16 0#16 [(3, 0xFFFF#16)]) = some ⟨0xFFFF#16, 0#16, 1#16, [(3, 0xFFFF#16)]⟩ := by decide

/-- `AD=A-1` -/
theorem test_destAD_wraps :
    run 0xECB0#16 (st 0#16 5#16 0#16 []) = some ⟨0xFFFF#16, 0xFFFF#16, 1#16, []⟩ := by decide

/-! ### Jumps: comp `D` on -2, 0, 3, -32768, 32767 (95_test_vectors.md section 2.4) -/

theorem test_jumpNull :
    ([0xFFFE#16, 0x0000#16, 0x0003#16, 0x8000#16, 0x7FFF#16].map fun d =>
      pcOf (exec (.jumpNull 3#2 CompRow.d.comp .none) (st 9#16 d 4#16 []))) =
      [some 5#16, some 5#16, some 5#16, some 5#16, some 5#16] := by decide

theorem test_jumpJGT :
    ([0xFFFE#16, 0x0000#16, 0x0003#16, 0x8000#16, 0x7FFF#16].map fun d =>
      pcOf (exec (.jumpJGT 3#2 CompRow.d.comp .none) (st 9#16 d 4#16 []))) =
      [some 5#16, some 5#16, some 9#16, some 5#16, some 9#16] := by decide

theorem test_jumpJEQ :
    ([0xFFFE#16, 0x0000#16, 0x0003#16, 0x8000#16, 0x7FFF#16].map fun d =>
      pcOf (exec (.jumpJEQ 3#2 CompRow.d.comp .none) (st 9#16 d 4#16 []))) =
      [some 5#16, some 9#16, some 5#16, some 5#16, some 5#16] := by decide

theorem test_jumpJGE :
    ([0xFFFE#16, 0x0000#16, 0x0003#16, 0x8000#16, 0x7FFF#16].map fun d =>
      pcOf (exec (.jumpJGE 3#2 CompRow.d.comp .none) (st 9#16 d 4#16 []))) =
      [some 5#16, some 9#16, some 9#16, some 5#16, some 9#16] := by decide

theorem test_jumpJLT :
    ([0xFFFE#16, 0x0000#16, 0x0003#16, 0x8000#16, 0x7FFF#16].map fun d =>
      pcOf (exec (.jumpJLT 3#2 CompRow.d.comp .none) (st 9#16 d 4#16 []))) =
      [some 9#16, some 5#16, some 5#16, some 9#16, some 5#16] := by decide

theorem test_jumpJNE :
    ([0xFFFE#16, 0x0000#16, 0x0003#16, 0x8000#16, 0x7FFF#16].map fun d =>
      pcOf (exec (.jumpJNE 3#2 CompRow.d.comp .none) (st 9#16 d 4#16 []))) =
      [some 9#16, some 5#16, some 9#16, some 9#16, some 9#16] := by decide

theorem test_jumpJLE :
    ([0xFFFE#16, 0x0000#16, 0x0003#16, 0x8000#16, 0x7FFF#16].map fun d =>
      pcOf (exec (.jumpJLE 3#2 CompRow.d.comp .none) (st 9#16 d 4#16 []))) =
      [some 9#16, some 9#16, some 5#16, some 9#16, some 5#16] := by decide

theorem test_jumpJMP :
    ([0xFFFE#16, 0x0000#16, 0x0003#16, 0x8000#16, 0x7FFF#16].map fun d =>
      pcOf (exec (.jumpJMP 3#2 CompRow.d.comp .none) (st 9#16 d 4#16 []))) =
      [some 9#16, some 9#16, some 9#16, some 9#16, some 9#16] := by decide

/-- `D;JEQ`: the target is not masked, and there the machine is stuck. -/
theorem test_jumpJEQ_target_not_masked :
    run 0xE302#16 (st 0xFFFF#16 0#16 4#16 []) = some ⟨0xFFFF#16, 0#16, 0xFFFF#16, []⟩ ∧
    shown (step (st 0xFFFF#16 0#16 0xFFFF#16 [])) = none := by decide

/-- `M;JLT`: the operand's address is masked, the target is not. -/
theorem test_jumpJLT_masks_the_operand_only :
    run 0xFC04#16 (st 0x8003#16 0#16 4#16 [(3, 0x8000#16)]) =
      some ⟨0x8003#16, 0#16, 0x8003#16, [(3, 0x8000#16)]⟩ := by decide

/-- `AM=M-1;JNE` and `A=0;JMP` under both values of JUMP_A_SAMPLE (95_test_vectors.md section 2.5). -/
theorem test_jump_a_sample :
    run 0xFCAD#16 (st 0#16 0#16 2#16 [(0, 0x000A#16)]) = some ⟨9#16, 0#16, 9#16, [(0, 9#16)]⟩ ∧
    run 0xFCAD#16 (pre (st 0#16 0#16 2#16 [(0, 0x000A#16)])) = some ⟨9#16, 0#16, 0#16, [(0, 9#16)]⟩ ∧
    run 0xEAA7#16 (st 5#16 0#16 9#16 []) = some ⟨0#16, 0#16, 0#16, []⟩ ∧
    run 0xEAA7#16 (pre (st 5#16 0#16 9#16 [])) = some ⟨0#16, 0#16, 5#16, []⟩ := by decide

/-- `AD=D-1;JGT` tests the value written (95_test_vectors.md section 2.5). -/
theorem test_jump_tests_the_output :
    run 0xE3B1#16 (st 3#16 5#16 7#16 []) = some ⟨4#16, 4#16, 4#16, []⟩ ∧
    run 0xE3B1#16 (st 3#16 1#16 7#16 []) = some ⟨0#16, 0#16, 8#16, []⟩ := by decide

/-! ### The generic row: undocumented comps (95_test_vectors.md section 2.6) -/

theorem test_cGeneric_undocumented_alu :
    run 0xE050#16 (st 0x0F0F#16 0x00FF#16 4#16 []) = some ⟨0x0F0F#16, 0xFFF0#16, 5#16, []⟩ ∧
    run 0xFA88#16 (st 5#16 7#16 4#16 [(5, 9#16)]) = some ⟨5#16, 7#16, 5#16, []⟩ ∧
    run 0xF307#16 (st 8#16 0#16 4#16 [(8, 1#16)]) = some ⟨8#16, 0#16, 8#16, [(8, 1#16)]⟩ ∧
    run 0xE490#16 (st 3#16 10#16 4#16 []) = some ⟨3#16, 0xFFF8#16, 5#16, []⟩ ∧
    run 0xEFA7#16 (st 3#16 0#16 4#16 []) = some ⟨0xFFFE#16, 0#16, 0xFFFE#16, []⟩ ∧
    run 0xEFA7#16 (pre (st 3#16 0#16 4#16 [])) = some ⟨0xFFFE#16, 0#16, 3#16, []⟩ ∧
    run 0xFFFF#16 (st 9#16 2#16 4#16 [(9, 0x55#16)]) = some ⟨1#16, 1#16, 1#16, [(9, 1#16)]⟩ := by decide

theorem test_cGeneric_undocumented_nop :
    run 0xE050#16 (nop (st 0x0F0F#16 0x00FF#16 4#16 [])) = some ⟨0x0F0F#16, 0x00FF#16, 5#16, []⟩ ∧
    run 0xFA88#16 (nop (st 5#16 7#16 4#16 [(5, 9#16)])) = some ⟨5#16, 7#16, 5#16, [(5, 9#16)]⟩ ∧
    run 0xFFFF#16 (nop (st 9#16 2#16 4#16 [(9, 0x55#16)])) = some ⟨9#16, 2#16, 5#16, [(9, 0x55#16)]⟩ := by decide

/-! ### The host (95_test_vectors.md section 2.9) -/

def line2 : List Char := ['0', '0', '0', '0', '0', '0', '0', '0', '0', '0', '0', '0', '0', '0', '1', '0']
def lineDA : List Char := ['1', '1', '1', '0', '1', '1', '0', '0', '0', '0', '0', '1', '0', '0', '0', '0']

theorem test_loadRom_two_lines :
    loadRom .specDefault (line2 ++ '\n' :: lineDA) = .ok (State.launch .specDefault [0x0002#16, 0xEC10#16]) ∧
    loadRom .specDefault (line2 ++ '\n' :: lineDA ++ ['\n']) = .ok (State.launch .specDefault [0x0002#16, 0xEC10#16]) := by
  decide

theorem test_loadRom_malformed :
    loadRom .specDefault (line2.drop 1) = .error (.malformedRomLine 0) ∧
    loadRom .specDefault (line2 ++ ['2']) = .error (.malformedRomLine 0) ∧
    loadRom .specDefault (line2 ++ '\n' :: '\n' :: lineDA) = .error (.malformedRomLine 1) ∧
    loadRom .specDefault (line2 ++ '\r' :: '\n' :: lineDA) = .error (.malformedRomLine 0) := by decide

theorem test_loadRom_clears :
    ((HostMachine.running (st 1#16 2#16 3#16 [(4, 5#16)])).act (.loadRom line2)) =
      .running (State.launch .specDefault [0x0002#16]) := by decide

theorem test_setKeyboard :
    (setKeyboard 65 (st 1#16 2#16 3#16 [])).ram = [(24576, 0x0041#16)] ∧
    (setKeyboard 0 (st 1#16 2#16 3#16 [(24576, 0x0041#16)])).ram = [] ∧
    (setKeyboard 65601 (st 1#16 2#16 3#16 [])).ram = [(24576, 0x0041#16)] := by decide

theorem test_cpuView :
    (st 0x6000#16 0x0041#16 2#16 [(24576, 0x0041#16)]).cpuView = ⟨0x6000#16, 0x0041#16, 0x0041#16, 2#16⟩ ∧
    (st 0x8005#16 0#16 0#16 [(5, 0xBEEF#16)]).cpuView.m = 0xBEEF#16 := by decide

/-- Bit 0 of a screen word is its leftmost pixel; word 32 begins row 1 (20_memory.md R36). -/
theorem test_pixel :
    (st 0#16 0#16 0#16 [(16384, 1#16)]).pixel 0 0 = .green ∧ (st 0#16 0#16 0#16 [(16384, 1#16)]).pixel 15 0 = .black ∧
    (st 0#16 0#16 0#16 [(16416, 0x8000#16)]).pixel 15 1 = .green ∧
    (st 0#16 0#16 0#16 [(24575, 0x8000#16)]).pixel 511 255 = .green := by decide

/-! ### The halt loop (95_test_vectors.md section 2.10) -/

/-- ROM with `w` and `v` at indices 4 and 5. -/
def haltSt (w v a pc : Word) : State :=
  { st a 0#16 pc [] with rom := [0#16, 0#16, 0#16, 0#16, w, v] }

theorem test_haltLoop_yes :
    (haltSt 4#16 0xEA87#16 7#16 4#16).haltLoop = true ∧ (haltSt 4#16 0xEA87#16 4#16 5#16).haltLoop = true ∧
    (haltSt 4#16 0xE307#16 0#16 4#16).haltLoop = true := by decide

theorem test_haltLoop_no :
    (haltSt 4#16 0xEA87#16 3#16 5#16).haltLoop = false ∧ (haltSt 4#16 0xE302#16 0#16 4#16).haltLoop = false ∧
    (haltSt 4#16 0xEA8F#16 0#16 4#16).haltLoop = false ∧ (haltSt 5#16 0xEA87#16 5#16 5#16).haltLoop = false ∧
    (haltSt 4#16 5#16 0#16 5#16).haltLoop = false := by decide

/-! ### The assembler (95_test_vectors.md section 2.11) -/

theorem test_assemble_predefined :
    assemble ['@', 'R', '5'] = .ok [0x0005#16] ∧ assemble ['@', 'S', 'C', 'R', 'E', 'E', 'N'] = .ok [0x4000#16] ∧
    assemble ['@', 'K', 'B', 'D'] = .ok [0x6000#16] ∧ assemble ['@', 'T', 'H', 'A', 'T'] = .ok [0x0004#16] := by decide

theorem test_assemble_variables :
    assemble ['@', 'i'] = .ok [0x0010#16] ∧
    assemble (['@', 'i'] ++ ['\n', '@', 'j'] ++ ['\n', '@', 'i']) = .ok [0x0010#16, 0x0011#16, 0x0010#16] ∧
    assemble ['@', 'S', 'C', 'P'] = .ok [0x0010#16] := by decide

theorem test_assemble_label :
    assemble (['(', 'T', 'O', 'P', ')'] ++ ['\n', '@', 'T', 'O', 'P'] ++ ['\n', '0', ';', 'J', 'M', 'P']) =
      .ok [0x0000#16, 0xEA87#16] := by decide

theorem test_assemble_comment :
    assemble [' ', ' ', 'D', ' ', '=', ' ', 'D', ' ', '+', ' ', 'A', ' ', ' ', ' ', '/', '/', ' ', 's', 'u', 'm'] = .ok [0xE090#16] := by
  decide

theorem test_assemble_errors :
    assemble ['@', '3', '2', '7', '6', '8'] = .error (.malformedSyntax 0) ∧
    assemble ['D', '=', 'A', '+', 'D'] = .error (.unknownMnemonic 0) ∧
    assemble ['(', 'X', ')', '\n', '(', 'X', ')'] = .error (.duplicateSymbol 1) := by decide

/-- A C line with an empty part, an `@` with nothing, and a label that is a predefined symbol (log entry 14). -/
theorem test_assemble_incomplete_lines :
    assemble ['D', '='] = .error (.unknownMnemonic 0) ∧ assemble ['=', 'D'] = .error (.unknownMnemonic 0) ∧
    assemble ['D', ';'] = .error (.unknownMnemonic 0) ∧ assemble ['A', '=', 'D', '=', 'M'] = .error (.unknownMnemonic 0) ∧
    assemble ['@'] = .error (.malformedSyntax 0) ∧ assemble ['(', 'X'] = .error (.malformedSyntax 0) ∧
    assemble ['(', 'S', 'P', ')'] = .error (.duplicateSymbol 0) := by decide

theorem test_disassemble :
    disassemble 0xE090#16 = some ['D', '=', 'D', '+', 'A'] ∧ disassemble 0xEA87#16 = some ['0', ';', 'J', 'M', 'P'] ∧
    disassemble 0x7FFF#16 = some ['@', '3', '2', '7', '6', '7'] ∧ disassemble 0x8A87#16 = none := by decide

/-! ### Witnesses: for each obligation with hypotheses, a state and operands that meet them together -/

theorem test_witness_LoadRomGivesTheResetState :
    parseRom (line2 ++ '\n' :: lineDA) = .ok [0x0002#16, 0xEC10#16] := by decide

theorem test_witness_LoadRomReadsOneWordALine :
    ([] : List Word).length ≤ romMax ∧ (List.replicate 32768 0xFFFF#16).length ≤ romMax := by
  rw [List.length_replicate]; decide

theorem test_witness_LoadRomRejects_a_malformed_line :
    let text := line2 ++ '\n' :: '\n' :: lineDA
    (romLines text)[1]? = some [] ∧ parseRomLine [] = none ∧
    ∀ k x, k < 1 → (romLines text)[k]? = some x → parseRomLine x ≠ none := by
  refine ⟨by decide, by decide, fun k x hk hx => ?_⟩
  obtain rfl : k = 0 := by omega
  obtain rfl : line2 = x := Option.some.inj hx
  decide

/-- The longest ROM of well-formed lines, and one line more. -/
theorem test_witness_LoadRomRejects_by_length (n : Nat) (h : n = 32768 ∨ n = 32769) :
    let text := romText (List.replicate n 0#16)
    (∀ x ∈ romLines text, parseRomLine x ≠ none) ∧ (romLines text).length = n ∧ (n ≤ romMax ∨ romMax < n) := by
  refine ⟨fun x hx => ?_, by simp [romLines_romText], by omega⟩
  simp only [romLines_romText, List.map_replicate, List.mem_replicate] at hx
  rw [hx.2]; decide

theorem test_witness_LoadRomRejects_changes_nothing :
    loadRom (HostMachine.running (st 1#16 2#16 3#16 [])).config ['2'] = .error (.malformedRomLine 0) := by decide

theorem test_witness_DecodeOfEncodeIsTheInstruction :
    (Instr.atValue 32767#15).wellFormed = true ∧
    (Instr.cGeneric 0#2 ⟨.memM, ⟨true, true, true, true, true, true⟩⟩ .AMD .JMP).wellFormed = true ∧
    (Instr.compDPlus1 1#2 .M .JGT).wellFormed = true ∧ (Instr.destAMD 2#2 CompRow.m.comp .none).wellFormed = true ∧
    (Instr.jumpJMP 3#2 CompRow.zero.comp .none).wellFormed = true := by decide

theorem test_witness_AllRowsOfAWordExecuteAlike :
    encode (.cGeneric 0#2 CompRow.dAndA.comp .none .none) = 0x8000#16 ∧
    encode (.compDAndA 0#2 .none .none) = 0x8000#16 ∧
    encode (.destNull 0#2 CompRow.dAndA.comp .none) = 0x8000#16 ∧
    encode (.jumpNull 0#2 CompRow.dAndA.comp .none) = 0x8000#16 := by decide

theorem test_witness_UnusedBitsDoNotMatter :
    (0x8C10#16).getLsbD 15 = true ∧ (0xEC10#16).getLsbD 15 = true ∧
    (0x8C10#16) &&& 0x9FFF#16 = 0xEC10#16 &&& 0x9FFF#16 := by decide

/-- At the last index of the ROM. -/
theorem test_witness_StepRunsTheDecodedInstruction :
    let s := (st 0#16 0#16 11#16 []).withFetchWord 16 0xE7C8
    (Instr.destM 3#2 CompRow.dPlus1.comp .none).wellFormed = true ∧
    s.rom[s.pc.toNat]? = some (encode (.destM 3#2 CompRow.dPlus1.comp .none)) ∧ s.rom.length = 12 := by decide

theorem test_witness_StepReadsTheFieldsOfTheWord :
    let s := (st 0#16 0#16 4#16 []).withFetchWord 16 0x7FFF
    let t := (st 0#16 0#16 4#16 []).withFetchWord 16 0x8000
    let z := st 0#16 0#16 12#16 []
    (s.rom[s.pc.toNat]? = some 0x7FFF#16 ∧ (0x7FFF#16).getLsbD 15 = false) ∧
    (t.rom[t.pc.toNat]? = some 0x8000#16 ∧ (0x8000#16).getLsbD 15 = true) ∧ z.rom.length ≤ z.pc.toNat := by decide

theorem test_witness_StepExistsExactlyInsideTheRom :
    let s := st 0#16 0#16 11#16 []
    let z := st 0#16 0#16 12#16 []
    s.pc.toNat < s.rom.length ∧ z.rom.length ≤ z.pc.toNat ∧ Stuck State.reset := by decide

theorem test_witness_EveryInstructionCompletes : (st 0#16 0#16 0#16 [(0, 1#16), (32767, 1#16)]).ram.wf = true := by decide

theorem test_witness_GenericCInstruction :
    let s := st 0#16 0#16 0#16 []
    let c : Comp := ⟨.regA, ⟨false, false, false, false, false, true⟩⟩
    (CompRow.d.comp.documented = true ∨ (nop s).cfg.undocComp = .alu) ∧ (c.documented = true ∨ s.cfg.undocComp = .alu) ∧
    ¬ (c.documented = true ∨ (nop s).cfg.undocComp = .alu) := by decide

theorem test_witness_UndocumentedCompIsANoOpUnderNop :
    (∀ r : CompRow, r.comp ≠ ⟨.regA, ⟨false, false, false, false, false, true⟩⟩) ∧
    (nop (st 0#16 0#16 0#16 [])).cfg.undocComp = .nop :=
  ⟨fun r => by cases r <;> decide, rfl⟩

/-- For the destination and jump rows: a documented comp under `nop`, an undocumented one under `alu`. -/
theorem test_witness_DestRows_and_JumpRows :
    Executed CompRow.dPlus1.comp (nop (st 0#16 0#16 0#16 [])) ∧
    Executed ⟨.memM, ⟨true, true, true, true, true, true⟩⟩ (st 0#16 0#16 0#16 []) :=
  ⟨.inl (by decide), .inr rfl⟩

theorem test_witness_JumpSampleMattersOnlyWhenAIsWritten :
    Dest.MD.toA = false ∧ Dest.AD.toA = true ∧
    (∀ s, s = st 9#16 2#16 4#16 [] ∨ s = pre (st 9#16 2#16 4#16 []) →
      Executed CompRow.d.comp s ∧ Taken .JGT (aluOut CompRow.d.comp s)) := by
  refine ⟨rfl, rfl, ?_⟩
  rintro s (rfl | rfl) <;> exact ⟨.inl (by decide), .inr (.inr ⟨rfl, by decide⟩)⟩

theorem test_witness_RamAddressIsMasked :
    0x8000 ≤ (0x8000#16).toNat ∧ (0x7FFF#16).toNat < 0x8000 ∧ effAddr 0x8000#16 = 0 ∧ effAddr 0x7FFF#16 = 32767 := by decide

/-- `M=D+1` reads no RAM (bit 12) and stores (bit 3); another ROM and another RAM for it. -/
theorem test_witness_StepTouchesOneCellAndNoRom :
    let s := (st 5#16 1#16 0#16 [(5, 7#16)]).withFetchWord 16 0xE7C8
    (shown (step s)).isSome = true ∧ s.rom[s.pc.toNat]? = some 0xE7C8#16 ∧
    ([0xE7C8#16] : List Word)[s.pc.toNat]? = some 0xE7C8#16 ∧ (0xE7C8#16).getLsbD 12 = false ∧
    (0xE7D0#16).getLsbD 3 = false := by decide

theorem test_witness_NoRamReadWithoutTheABit :
    (∀ f, (Instr.destM 3#2 CompRow.dPlus1.comp .none).cFields? = some f → f.comp.y = .regA) ∧
    (∀ f, (Instr.atValue 0#15).cFields? = some f → f.comp.y = .regA) :=
  ⟨fun f h => by cases h; rfl, fun f h => by cases h⟩

/-- A jump that is taken, and the step from the last index of the longest ROM. -/
theorem test_witness_PcIncrementNeverWraps :
    (let s := (st 9#16 2#16 4#16 []).withFetchWord 16 0xE301;
      Inv s ∧ pcOf (step s) = some 9#16) ∧
    (let s : State := { st 0#16 0#16 32767#16 [] with rom := List.replicate 32768 5#16 };
      Inv s ∧ step s = .next (s.setA 5#16).nextPc) := by
  refine ⟨by decide, ⟨rfl, by rw [List.length_replicate]; decide⟩, ?_⟩
  have h : State.fetch { st 0#16 0#16 32767#16 [] with rom := List.replicate 32768 5#16 } = some 5#16 := by
    rw [State.fetch, List.getElem?_replicate]; rfl
  rw [step_of_fetch h, show decode 5#16 = .atValue 5#15 by decide, exec_atValue]; rfl

theorem test_witness_EveryStepKeepsTheInvariant :
    let s := (st 0x7FFF#16 1#16 0#16 [(0, 1#16)]).withFetchWord 16 0xE7C8
    Inv s ∧ shown (step s) = some ⟨0x7FFF#16, 1#16, 1#16, [(0, 1#16), (32767, 2#16)]⟩ := by decide

theorem test_witness_InvariantHoldsAtReset :
    loadRom ⟨.pre, .nop, .on⟩ line2 = .ok (State.launch ⟨.pre, .nop, .on⟩ [0x0002#16]) := by decide

theorem test_witness_EveryHostSessionKeepsTheInvariant :
    (∀ text, HostAction.loadRom text ∉ [HostAction.step 3, .setKeyboard (-1)]) ∧
    (HostMachine.new .specDefault).session [.loadRom line2, .setKeyboard (-1), .step 5] =
      .running { State.launch .specDefault [0x0002#16] with regA := 2#16, pc := 1#16, ram := [(24576, 0xFFFF#16)] } :=
  ⟨fun text h => by simp at h, by decide⟩

theorem test_witness_SetKeyboardWritesOneCell : (24575 : Nat) ≠ 24576 ∧ (24577 : Nat) ≠ 24576 := by decide

theorem test_witness_ScreenBitsArePixels : (0 < 8192 ∧ 0 < 16) ∧ 8191 < 8192 ∧ 15 < 16 := by decide

/-- Both branches of condition (3). -/
theorem test_witness_HaltLoopRunsForever :
    HaltLoopIndex (haltSt 4#16 0xEA87#16 7#16 4#16) 4 ∧ HaltLoopIndex (haltSt 4#16 0xEA87#16 4#16 5#16) 4 :=
  ⟨⟨by decide, by decide, by decide, ⟨3#2, .zero, by decide⟩, .inl rfl⟩,
    ⟨by decide, by decide, by decide, ⟨3#2, .zero, by decide⟩, .inr ⟨rfl, rfl⟩⟩⟩

/-- An early return that differs from the full run, and the setting under which there is none. -/
theorem test_witness_EarlyStopIsInvisibleInRamAndD :
    let s : State := { haltSt 4#16 0xEA87#16 4#16 4#16 with cfg := ⟨.post, .alu, .on⟩ }
    stepMayReturn 3 s s ∧ s ≠ stepN 3 s ∧ (haltSt 4#16 0xEA87#16 4#16 4#16).cfg.haltDetect = .off := by
  exact ⟨.inr ⟨rfl, 0, by decide, rfl, by decide⟩, by decide, rfl⟩

theorem test_witness_FinishedRunsKeepTheirResult :
    EndsAfter 1 (haltSt 4#16 0xEA87#16 0#16 3#16) ∧ Stuck (haltSt 4#16 0xEA87#16 0#16 6#16) := by
  refine ⟨⟨by decide, fun k hk => ?_⟩, by decide⟩
  obtain rfl : k = 0 := by omega
  decide

theorem test_witness_AssembleInvertsDisassemble :
    disassemble 0x0000#16 = some ['@', '0'] ∧
    disassemble 0xFFF7#16 = none ∧ disassemble 0xFDFF#16 = some ['A', 'M', 'D', '=', 'M', '+', '1', ';', 'J', 'M', 'P'] ∧
    (0xFDFF#16).getLsbD 14 = true ∧ (0xFDFF#16).getLsbD 13 = true ∧ (CFields.ofWord 0xFDFF#16).comp.documented = true := by
  decide

theorem test_witness_AssemblyEmitsOneWordAnInstruction :
    assemble (['(', 'X', ')', '\n', '@', 'X', '\n', '@', '7'] ++ ['\n', 'D', '=', 'A', '\n', '@', 'v']) =
      .ok [0x0000#16, 0x0007#16, 0xEC10#16, 0x0010#16] := by decide

theorem test_witness_EveryHostSession_one_operation :
    HostInv (.running (st 1#16 2#16 3#16 [(4, 5#16)])) ∧ HostInv (.unlaunched .specDefault) :=
  ⟨by unfold HostInv; decide, trivial⟩

/-- A bad line after an empty one, a label bound twice, and a label that is a predefined symbol. -/
theorem test_witness_AssemblerErrorsNameTheirLine :
    (let text := ['/', '/', '\n', 'A', '\n', 'D', '='];
      (∀ k x, k < 2 → (splitLines text)[k]? = some x → stripLine x = [] ∨ ∃ y, parseAsmLine k (stripLine x) = .ok y) ∧
      (splitLines text)[2]? = some ['D', '='] ∧ stripLine ['D', '='] ≠ [] ∧
      parseAsmLine 2 (stripLine ['D', '=']) = .error (.unknownMnemonic 2)) ∧
    (parseAsmLines 0 (splitLines ['(', 'X', ')', '\n', '(', 'X', ')']) =
        .ok ([(0, .label ['X'])] ++ (1, .label ['X']) :: []) ∧
      bindLabels 0 predefined [(0, .label ['X'])] = .ok ((['X'], 0) :: predefined) ∧
      SymbolTable.value? ((['X'], 0) :: predefined) ['X'] = some 0) ∧
    SymbolTable.value? predefined ['S', 'P'] = some 0 := by
  refine ⟨⟨fun k x hk hx => ?_, by decide, by decide, by decide⟩, by decide, by decide⟩
  obtain rfl | rfl : k = 0 ∨ k = 1 := by omega
  · obtain rfl : ['/', '/'] = x := Option.some.inj hx
    exact .inl (by decide)
  · obtain rfl : ['A'] = x := Option.some.inj hx
    exact .inr ⟨.instr 0xEC00#16, by decide⟩

/-- An assembly text of `n + 1` lines `A`. -/
def linesA : Nat → List Char
  | 0 => ['A']
  | n + 1 => 'A' :: '\n' :: linesA n

theorem parse_linesA (k n : Nat) :
    parseAsmLines k (splitLines (linesA n)) = .ok ((List.range' k (n + 1)).map fun i => (i, .instr 0xEC00#16)) := by
  have hA : ∀ i, parseAsmLine i (stripLine ['A']) = .ok (.instr 0xEC00#16) := fun i => rfl
  have hne : stripLine ['A'] ≠ [] := by decide
  induction n generalizing k with
  | zero => simp [linesA, splitLines, parseAsmLines, hne, hA]
  | succ n ih =>
    rw [linesA, show 'A' :: '\n' :: linesA n = ['A'] ++ '\n' :: linesA n from rfl, splitLines_append ['A'] _ (by simp),
      parseAsmLines, if_neg hne, hA, ih, List.range'_succ]
    rfl

/-- One line more than a ROM holds: the 32769th is line 32768. -/
theorem test_witness_AssemblerErrorsNameTheirLine_overflow :
    let xs := (List.range' 0 (32768 + 1)).map fun i => (i, AsmLine.instr 0xEC00#16)
    parseAsmLines 0 (splitLines (linesA 32768)) = .ok xs ∧
    (xs.filter fun p => hasWord p.2)[romMax]? = some (32768, .instr 0xEC00#16) ∧
    bindLabels 0 predefined xs = .ok predefined ∧ ∀ p ∈ xs, ∀ name, p.2 ≠ .symbol name := by
  refine ⟨parse_linesA 0 32768, ?_, ?_, ?_⟩
  · rw [List.filter_eq_self.mpr (by simp [hasWord])]
    simp [romMax]
  · have h : ∀ (l : List Nat) (i : Nat),
        bindLabels i predefined (l.map fun i => (i, AsmLine.instr 0xEC00#16)) = .ok predefined := by
      intro l
      induction l with
      | nil => exact fun i => rfl
      | cons a l ih => exact fun i => ih (i + 1)
    exact h _ 0
  · simp

end Sys2Proof.Tests
end

/-! ## Proofs: the state after an accepted load (10_state.md R22) -/

namespace Sys2Proof.Machine

section Launch

variable (cfg : Config) (rom : List Word)

@[simp] theorem State.launch_regA : (State.launch cfg rom).regA = 0#16 := rfl
@[simp] theorem State.launch_regD : (State.launch cfg rom).regD = 0#16 := rfl
@[simp] theorem State.launch_pc : (State.launch cfg rom).pc = 0#16 := rfl
@[simp] theorem State.launch_ram : (State.launch cfg rom).ram = [] := rfl
@[simp] theorem State.launch_rom : (State.launch cfg rom).rom = rom := rfl
@[simp] theorem State.launch_cfg : (State.launch cfg rom).cfg = cfg := rfl

/-- The launch state lists no cell, so each one reads as the reset content. -/
theorem State.launch_ram_read (i : Nat) : (State.launch cfg rom).ram.read i = 0#16 := by
  rw [State.launch_ram, Memory.read_nil, Memory.unlisted]

end Launch

/-- The converse of `loadRom_cases`: a text that parses is accepted. -/
theorem loadRom_of_parseRom (cfg : Config) {text : List Char} {ws : List Word} (h : parseRom text = .ok ws) :
    loadRom cfg text = .ok (State.launch cfg ws) := by
  simp only [loadRom, h]

/-- Settles O1: the load answers the launch state of the parsed words, and `parseRom` bounds their number. -/
theorem loadRomGivesTheResetState : Obligations.LoadRomGivesTheResetState := by
  intro cfg text ws h
  exact ⟨State.launch cfg ws, loadRom_of_parseRom cfg h, State.launch_pc cfg ws, State.launch_regA cfg ws,
    State.launch_regD cfg ws, State.launch_ram_read cfg ws, State.launch_rom cfg ws, parseRom_length h,
    State.launch_cfg cfg ws⟩

end Sys2Proof.Machine

/-! ## Proofs: the data memory and the instruction memory (20_memory.md R31, R32) -/

namespace Sys2Proof.Machine

open Sys2Proof.Safety

/-- Settles O32: reads and writes go through `effAddr`, which is the address word modulo 32768. -/
theorem ramAddressIsMasked : Obligations.RamAddressIsMasked := by
  intro s w v
  have hw : w.toNat < 65536 := w.isLt
  refine ⟨?_, ?_, effAddr_lt w, fun _ => ?_, fun _ => ?_⟩
  · rw [State.memRead, effAddr_eq_mod]
  · rw [State.memWrite_ram, effAddr_eq_mod]
  · rw [effAddr_eq_mod]; omega
  · rw [effAddr_eq_mod]; omega

/-! ### The step on a fetched word, by its format bit (30_encoding.md R50) -/

theorem step_of_aWord {s : State} {w : Word} (hw : s.fetch = some w) (h : w.getLsbD 15 = false) :
    step s = .next (s.setA ((w.extractLsb' 0 15).zeroExtend 16)).nextPc := by
  rw [step_of_fetch hw, decode, if_neg (Bool.eq_false_iff.mp h), exec_atValue]

theorem step_of_cWord {s : State} {w : Word} (hw : s.fetch = some w) (h : w.getLsbD 15 = true) :
    step s = execC (CFields.ofWord w).comp (CFields.ofWord w).dest (CFields.ofWord w).jump s := by
  rw [step_of_fetch hw, decode, if_pos h, exec_of_cFields? (CFields.cFields?_instr _)]

theorem ofWord_dest_toM (w : Word) : (CFields.ofWord w).dest.toM = w.getLsbD 3 := by
  simp [CFields.ofWord, Dest.ofCode]

theorem ofWord_comp_y (w : Word) : (CFields.ofWord w).comp.y = .ofBit (w.getLsbD 12) := rfl

/-! ### The state after an executed C-instruction, field by field -/

section AfterC

variable (s : State) (c : Comp) (d : Dest) (j : Jump)

@[simp] theorem State.afterC_regA : (s.afterC c d j).regA = if d.toA then aluOut c s else s.regA := by
  simp [State.afterC, aluOut]

@[simp] theorem State.afterC_regD : (s.afterC c d j).regD = if d.toD then aluOut c s else s.regD := by
  simp [State.afterC, aluOut]

@[simp] theorem State.afterC_pc :
    (s.afterC c d j).pc =
      if jumpTaken j (aluOut c s) then (s.writeDest d (aluOut c s)).jumpTarget s.regA else s.pc + 1#16 := by
  rw [State.afterC, State.finishJump_pc, State.writeDest_pc]; rfl

@[simp] theorem State.afterC_ram :
    (s.afterC c d j).ram = if d.toM then s.ram.write (effAddr s.regA) (aluOut c s) else s.ram := by
  simp [State.afterC, aluOut]

@[simp] theorem State.afterC_rom : (s.afterC c d j).rom = s.rom := by simp [State.afterC]

@[simp] theorem State.afterC_cfg : (s.afterC c d j).cfg = s.cfg := by simp [State.afterC]

end AfterC

/-! ### What a step leaves unchanged -/

section Frame

variable {s t : State} (h : step s = .next t)
include h

theorem step_rom : t.rom = s.rom := by
  obtain ⟨-, ⟨v, rfl⟩ | rfl | ⟨c, d, j, rfl⟩⟩ := step_cases h <;> simp

theorem step_cfg : t.cfg = s.cfg := by
  obtain ⟨-, ⟨v, rfl⟩ | rfl | ⟨c, d, j, rfl⟩⟩ := step_cases h <;> simp

theorem step_ram_read_of_ne {i : Nat} (hi : i ≠ effAddr s.regA) : t.ram.read i = s.ram.read i := by
  obtain ⟨-, ⟨v, rfl⟩ | rfl | ⟨c, d, j, rfl⟩⟩ := step_cases h
  · rfl
  · rfl
  · exact (afterC_writes s c d j).other i fun _ => hi

/-- An instruction that is not a store, the A-instruction included, keeps the RAM as data. -/
theorem step_ram_of_no_store {w : Word} (hw : s.fetch = some w)
    (hb : w.getLsbD 15 = false ∨ w.getLsbD 3 = false) : t.ram = s.ram := by
  cases h15 : w.getLsbD 15 with
  | false =>
    cases (step_of_aWord hw h15).symm.trans h
    rfl
  | true =>
    have hM : (CFields.ofWord w).dest.toM = false :=
      (ofWord_dest_toM w).trans (hb.resolve_left (by rw [h15]; decide))
    rw [step_of_cWord hw h15] at h
    obtain ⟨-, he⟩ | ⟨-, he⟩ :=
      execC_cases (CFields.ofWord w).comp (CFields.ofWord w).dest (CFields.ofWord w).jump s
    · cases he.symm.trans h
      rfl
    · cases he.symm.trans h
      rw [State.afterC_ram, hM]
      rfl

end Frame

/-! ### What does not influence a step

The memories are replaced, and the same step is taken beside the first one. -/

theorem State.eq_of_fields {s t : State} (hA : s.regA = t.regA) (hD : s.regD = t.regD) (hpc : s.pc = t.pc)
    (hram : s.ram = t.ram) (hrom : s.rom = t.rom) (hcfg : s.cfg = t.cfg) : s = t := by
  cases s; cases t; congr

/-- The jump target reads A and the parameters alone. -/
theorem State.jumpTarget_congr {s t : State} (hA : s.regA = t.regA) (hcfg : s.cfg = t.cfg) (a0 : Word) :
    s.jumpTarget a0 = t.jumpTarget a0 := by
  rw [State.jumpTarget, State.jumpTarget, hA, hcfg]

/-- An executed C-instruction in other memories, where its `y` operand is the same: the registers come out alike. -/
theorem afterC_withMemories {s : State} {c : Comp} (m : Memory) (rom : List Word)
    (hy : ({ s with ram := m, rom := rom } : State).yOperand c.y = s.yOperand c.y) (d : Dest) (j : Jump) :
    ({ s with ram := m, rom := rom } : State).afterC c d j =
      { s.afterC c d j with
        ram := if d.toM then m.write (effAddr s.regA) (aluOut c s) else m
        rom := rom } := by
  have hout : aluOut c { s with ram := m, rom := rom } = aluOut c s := by rw [aluOut, hy, aluOut]
  apply State.eq_of_fields
  case hpc =>
    simp only [State.afterC_pc, hout]
    rw [State.jumpTarget_congr (t := s.writeDest d (aluOut c s))] <;> simp
  all_goals simp [hout]

/-- A C-instruction, executed or skipped, in other memories where its `y` operand is the same. -/
theorem execC_withMemories {s t : State} {c : Comp} {d : Dest} {j : Jump} (h : execC c d j s = .next t) (m : Memory)
    (rom : List Word) (hy : ({ s with ram := m, rom := rom } : State).yOperand c.y = s.yOperand c.y) :
    ∃ m', execC c d j { s with ram := m, rom := rom } = .next { t with ram := m', rom := rom } ∧
      (m = s.ram → m' = t.ram) := by
  obtain ⟨hs, he⟩ | ⟨hs, he⟩ := execC_cases c d j s
  · cases he.symm.trans h
    exact ⟨m, if_pos hs, id⟩
  · cases he.symm.trans h
    refine ⟨if d.toM then m.write (effAddr s.regA) (aluOut c s) else m, ?_, fun hm => ?_⟩
    · rw [← afterC_withMemories m rom hy]
      exact if_neg (Bool.eq_false_iff.mp hs)
    · rw [State.afterC_ram, hm]

/-- One step in other memories: the ROM matters at `pc` only, and the RAM through the `y` operand of a C word only. -/
theorem step_withMemories {s t : State} {w : Word} (h : step s = .next t) (hw : s.fetch = some w) (m : Memory)
    {rom : List Word} (hrom : rom[s.pc.toNat]? = some w)
    (hm : w.getLsbD 15 = false ∨ w.getLsbD 12 = false ∨ m.read (effAddr s.regA) = s.ram.read (effAddr s.regA)) :
    ∃ m', step { s with ram := m, rom := rom } = .next { t with ram := m', rom := rom } ∧
      (m = s.ram → m' = t.ram) := by
  have hw' : ({ s with ram := m, rom := rom } : State).fetch = some w := hrom
  cases h15 : w.getLsbD 15 with
  | false =>
    cases (step_of_aWord hw h15).symm.trans h
    exact ⟨m, step_of_aWord hw' h15, id⟩
  | true =>
    rw [step_of_cWord hw h15] at h
    rw [step_of_cWord hw' h15]
    refine execC_withMemories h m rom ?_
    obtain h0 | h12 | hcell := hm
    · cases h0.symm.trans h15
    · rw [ofWord_comp_y, h12]; rfl
    · cases (CFields.ofWord w).comp.y with
      | regA => rfl
      | memM => exact hcell

/-- Settles O34: the frame lemmas of a step, and the step in another ROM and in another RAM. -/
theorem stepTouchesOneCellAndNoRom : Obligations.StepTouchesOneCellAndNoRom := by
  intro s t h
  refine ⟨fun i hi => step_ram_read_of_ne h hi, step_rom h, step_cfg h, fun w hw => step_ram_of_no_store h hw,
    ?_, ?_⟩
  · intro rom w hw hrom
    obtain ⟨m', he, hm'⟩ := step_withMemories h hw s.ram hrom (.inr (.inr rfl))
    rw [hm' rfl] at he
    exact he
  · intro m w hw hm
    obtain ⟨m', he, -⟩ := step_withMemories h hw m (rom := s.rom) hw hm
    exact ⟨_, he, rfl, rfl, rfl⟩

end Sys2Proof.Machine

/-! ## Proofs: the assembler undoes the disassembler (30_encoding.md R69)

The text of a word is one line that stripping leaves as it is. It is parsed back part by part: the decimal digits of an A
word, and the destination, comp and jump of a C word, which the first `=` and the first `;` tell apart. -/

namespace Sys2Proof.Machine

/-! ### Lines that stripping leaves as they are (30_encoding.md R61) -/

/-- A character that ends no line, opens no comment and is not blank. -/
def isPlainChar (c : Char) : Bool :=
  c != '\n' && c != '/' && !isBlank c

theorem cutComment_of_no_slash {l : List Char} (h : '/' ∉ l) : cutComment l = l := by
  induction l with
  | nil => rfl
  | cons c l ih =>
    obtain ⟨hc, hl⟩ := List.ne_and_not_mem_of_not_mem_cons h
    rw [cutComment, ih hl]
    rintro t rfl -
    exact hc rfl

theorem stripLine_of_plain {l : List Char} (h : ∀ c ∈ l, isPlainChar c = true) : stripLine l = l := by
  have hcut : cutComment l = l := cutComment_of_no_slash fun hc => absurd (h _ hc) (by decide)
  rw [stripLine, hcut, List.filter_eq_self]
  intro c hc
  have hplain := h c hc
  rw [isPlainChar, Bool.and_eq_true] at hplain
  exact hplain.2

theorem splitLines_of_plain {l : List Char} (h : ∀ c ∈ l, isPlainChar c = true) : splitLines l = [l] :=
  splitLines_line l fun c hc hnl => absurd (hnl ▸ h c hc) (by decide)

/-- A text of one line whose word needs no new symbol. -/
theorem assemble_of_plain_line {l : List Char} {x : AsmLine} {w : Word} (hl : l ≠ [])
    (hplain : ∀ c ∈ l, isPlainChar c = true) (hx : parseAsmLine 0 l = .ok x)
    (hw : asmWord 16 predefined 0 x = .ok (some w, 16, predefined)) : assemble l = .ok [w] := by
  have hlines : parseAsmLines 0 (splitLines l) = .ok [(0, x)] := by
    simp [splitLines_of_plain hplain, parseAsmLines, stripLine_of_plain hplain, hl, hx]
  have hlabels : bindLabels 0 predefined [(0, x)] = .ok predefined := by
    cases x with
    | label name => cases hw
    | literal v => rfl
    | symbol name => rfl
    | instr v => rfl
  simp [assemble, hlines, hlabels, emitWords, hw, romMax]

/-! ### Decimal numbers -/

theorem digitChar_eq_natDigitChar {d : Nat} (hd : d < 10) : digitChar d = Nat.digitChar d := by
  interval_cases d <;> rfl

/-- The model's decimal text is the library's. -/
theorem decimalText_eq_toDigits {fuel n : Nat} (h : n < 10 ^ (fuel + 1)) :
    decimalText (fuel + 1) n = Nat.toDigits 10 n := by
  induction fuel generalizing n with
  | zero =>
    have hn : n < 10 := by simpa using h
    rw [Nat.toDigits_of_lt_base hn, decimalText, if_pos hn, Nat.mod_eq_of_lt hn, digitChar_eq_natDigitChar hn]
    rfl
  | succ fuel ih =>
    rw [decimalText, digitChar_eq_natDigitChar (Nat.mod_lt n (by decide)), Nat.toDigits_eq_if (by decide)]
    split
    · next hn => rw [Nat.mod_eq_of_lt hn]; rfl
    · rw [ih (by rw [pow_succ] at h; omega)]

theorem parseDecimal_eq_ofDigitChars {l : List Char} (h : ∀ c ∈ l, c.isDigit = true) (acc : Nat) :
    parseDecimal acc l = some (Nat.ofDigitChars 10 l acc) := by
  induction l generalizing acc with
  | nil => rfl
  | cons c l ih =>
    obtain ⟨hc, hl⟩ := List.forall_mem_cons.mp h
    rw [parseDecimal, if_pos hc, ih hl, Nat.ofDigitChars_cons]
    rfl

theorem isDigit_of_mem_decimal {n : Nat} : ∀ c ∈ Nat.toDigits 10 n, c.isDigit = true :=
  fun _ hc => Nat.isDigit_of_mem_toDigits (by decide) (by decide) hc

theorem parseDecimal_toDigits (n : Nat) : parseDecimal 0 (Nat.toDigits 10 n) = some n := by
  rw [parseDecimal_eq_ofDigitChars isDigit_of_mem_decimal, Nat.ofDigitChars_ten_toDigits]

theorem isPlainChar_of_isDigit {c : Char} (h : c.isDigit = true) : isPlainChar c = true := by
  have hne : ∀ x : Char, x.isDigit = false → c ≠ x := by
    rintro x hx rfl
    exact absurd h (by simp [hx])
  simp [isPlainChar, isBlank, hne]

theorem isSymbol_of_digits {l : List Char} (h : ∀ c ∈ l, c.isDigit = true) : isSymbol l = false := by
  cases l with
  | nil => rfl
  | cons c l => simp [isSymbol, h c]

/-! ### The text of an A word (30_encoding.md R62) -/

theorem parseAsmLine_decimal (k : Nat) {n : Nat} (hn : n ≤ 32767) :
    parseAsmLine k ('@' :: Nat.toDigits 10 n) = .ok (.literal n) := by
  rw [parseAsmLine, isSymbol_of_digits isDigit_of_mem_decimal, parseDecimal_toDigits]
  simp [hn]

theorem assemble_decimal {n : Nat} (hn : n ≤ 32767) :
    assemble ('@' :: Nat.toDigits 10 n) = .ok [BitVec.ofNat 16 n] := by
  refine assemble_of_plain_line (List.cons_ne_nil _ _) ?_ (parseAsmLine_decimal 0 hn) rfl
  exact List.forall_mem_cons.mpr ⟨by decide, fun c hc => isPlainChar_of_isDigit (isDigit_of_mem_decimal c hc)⟩

theorem disassemble_of_aWord {w : Word} (h : w.getLsbD 15 = false) :
    disassemble w = some ('@' :: Nat.toDigits 10 w.toNat) := by
  rw [disassemble, if_neg (Bool.eq_false_iff.mp h), decimalText_eq_toDigits (by omega)]

theorem toNat_le_of_aWord {w : Word} (h : w.getLsbD 15 = false) : w.toNat ≤ 32767 := by
  have := BitVec.msb_eq_false_iff_two_mul_lt.mp ((BitVec.msb_eq_getLsbD_last w).trans h)
  omega

/-! ### The parts of the text of a C word (30_encoding.md R63) -/

theorem splitAtChar_eq_none {c : Char} {l : List Char} (h : c ∉ l) : splitAtChar c l = none := by
  induction l with
  | nil => rfl
  | cons x l ih =>
    obtain ⟨hx, hl⟩ := List.ne_and_not_mem_of_not_mem_cons h
    rw [splitAtChar, if_neg hx.symm, ih hl]
    rfl

theorem splitAtChar_append {c : Char} {l : List Char} (h : c ∉ l) (t : List Char) :
    splitAtChar c (l ++ c :: t) = some (l, t) := by
  induction l with
  | nil => simp [splitAtChar]
  | cons x l ih =>
    obtain ⟨hx, hl⟩ := List.ne_and_not_mem_of_not_mem_cons h
    rw [List.cons_append, splitAtChar, if_neg hx.symm, ih hl]
    rfl

theorem compOfText_compText (r : CompRow) : compOfText (compText r) = some r := by
  cases r <;> decide

/-- The destination part is empty, or a mnemonic of table R56 and the first `=`. -/
theorem destText_cases (d : Dest) :
    (d = .none ∧ destText d = []) ∨ ∃ t, destText d = t ++ ['='] ∧ '=' ∉ t ∧ destOfText t = some d := by
  rcases d with ⟨_ | _, _ | _, _ | _⟩
  case false.false.false => exact .inl ⟨rfl, rfl⟩
  all_goals exact .inr ⟨_, rfl, by decide, by decide⟩

/-- The jump part is empty, or the first `;` and a mnemonic of table R57. -/
theorem jumpText_cases (j : Jump) :
    (j = .none ∧ jumpText j = []) ∨ ∃ t, jumpText j = ';' :: t ∧ jumpOfText t = some j := by
  rcases j with ⟨_ | _, _ | _, _ | _⟩
  case false.false.false => exact .inl ⟨rfl, rfl⟩
  all_goals exact .inr ⟨_, rfl, by decide⟩

/-! ### The text of a C word -/

/-- `[DEST=]COMP[;JUMP]`, the text that `disassemble` gives a C word of these parts (`disassemble_toWord`). -/
def cText (r : CompRow) (d : Dest) (j : Jump) : List Char :=
  destText d ++ compText r ++ jumpText j

/-- A character that makes a line no label and no A-instruction, and that stripping leaves. -/
def isCChar (c : Char) : Bool :=
  isPlainChar c && c != '(' && c != '@'

theorem isPlainChar_of_isCChar {c : Char} (h : isCChar c = true) : isPlainChar c = true := by
  simp only [isCChar, Bool.and_eq_true] at h
  exact h.1.1

theorem cText_chars (r : CompRow) (d : Dest) (j : Jump) : ∀ c ∈ cText r d j, isCChar c = true := by
  have hd : (destText d).all isCChar = true := by rcases d with ⟨_ | _, _ | _, _ | _⟩ <;> rfl
  have hr : (compText r).all isCChar = true := by cases r <;> rfl
  have hj : (jumpText j).all isCChar = true := by rcases j with ⟨_ | _, _ | _, _ | _⟩ <;> rfl
  rw [← List.all_eq_true, cText, List.all_append, List.all_append, hd, hr, hj]
  rfl

theorem cText_ne_nil (r : CompRow) (d : Dest) (j : Jump) : cText r d j ≠ [] := by
  have hr : compText r ≠ [] := by cases r <;> decide
  simp [cText, hr]

/-- The parts come back, with and without a destination, with and without a jump: the comp has neither `=` nor `;` in it,
the mnemonic of the destination no `=`. -/
theorem parseC_cText (r : CompRow) (d : Dest) (j : Jump) :
    parseC (cText r d j) = some (CFields.toWord ⟨3#2, r.comp, d, j⟩) := by
  have hr : ';' ∉ compText r := by cases r <;> decide
  have heq : '=' ∉ compText r ++ jumpText j := by
    have hr : '=' ∉ compText r := by cases r <;> decide
    have hj : '=' ∉ jumpText j := by rcases j with ⟨_ | _, _ | _, _ | _⟩ <;> decide
    simp [hr, hj]
  obtain ⟨rfl, hd⟩ | ⟨td, hd, htd, hdest⟩ := destText_cases d <;>
    obtain ⟨rfl, hj⟩ | ⟨tj, hj, hjump⟩ := jumpText_cases j
  · -- COMP
    rw [hj, List.append_nil] at heq
    simp [parseC, cText, hd, hj, splitAtChar_eq_none heq, splitAtChar_eq_none hr, compOfText_compText]
  · -- COMP;JUMP
    rw [hj] at heq
    simp [parseC, cText, hd, hj, splitAtChar_eq_none heq, splitAtChar_append hr, compOfText_compText, hjump]
  · -- DEST=COMP
    simp [parseC, cText, hd, hj, splitAtChar_append htd, hdest, splitAtChar_eq_none hr, compOfText_compText]
  · -- DEST=COMP;JUMP
    simp [parseC, cText, hd, hj, splitAtChar_append htd, hdest, splitAtChar_append hr, compOfText_compText, hjump]

/-- A line of such characters is a C line: it begins with neither `(` nor `@`. -/
theorem parseAsmLine_of_parseC (k : Nat) {l : List Char} {w : Word} (hl : ∀ c ∈ l, isCChar c = true)
    (h : parseC l = some w) : parseAsmLine k l = .ok (.instr w) := by
  rw [parseAsmLine, h]
  · rintro t rfl
    exact absurd (hl _ List.mem_cons_self) (by decide)
  · rintro t rfl
    exact absurd (hl _ List.mem_cons_self) (by decide)

theorem assemble_cText (r : CompRow) (d : Dest) (j : Jump) :
    assemble (cText r d j) = .ok [CFields.toWord ⟨3#2, r.comp, d, j⟩] := by
  have hchars := cText_chars r d j
  exact assemble_of_plain_line (cText_ne_nil r d j) (fun c hc => isPlainChar_of_isCChar (hchars c hc))
    (parseAsmLine_of_parseC 0 hchars (parseC_cText r d j)) rfl

theorem disassemble_of_cWord {w : Word} (h : w.getLsbD 15 = true) :
    disassemble w =
      if (CFields.ofWord w).unused = 3#2 then
        (CFields.ofWord w).comp.row?.map fun r => cText r (CFields.ofWord w).dest (CFields.ofWord w).jump
      else none := by
  rw [disassemble, if_pos h]
  rfl

theorem ofWord_unused_eq_three_iff (w : Word) :
    (CFields.ofWord w).unused = 3#2 ↔ w.getLsbD 14 = true ∧ w.getLsbD 13 = true := by
  have hbits : ∀ u : BitVec 2, u = 3#2 ↔ u.getLsbD 1 = true ∧ u.getLsbD 0 = true := by decide
  simp [hbits, CFields.ofWord]

/-! ### The round trip -/

theorem assemble_of_disassemble {w : Word} {text : List Char} (h : disassemble w = some text) :
    assemble text = .ok [w] := by
  cases h15 : w.getLsbD 15 with
  | false =>
    rw [disassemble_of_aWord h15] at h
    cases h
    rw [assemble_decimal (toNat_le_of_aWord h15), BitVec.ofNat_toNat, BitVec.setWidth_eq]
  | true =>
    rw [disassemble_of_cWord h15] at h
    split at h
    · next hu =>
      obtain ⟨r, hr, rfl⟩ := Option.map_eq_some_iff.mp h
      rw [assemble_cText, Comp.comp_of_row? hr, ← hu, CFields.toWord_ofWord h15]
    · cases h

theorem disassemble_isSome_iff (w : Word) :
    (disassemble w).isSome = true ↔
      w.getLsbD 15 = false ∨ (w.getLsbD 14 = true ∧ w.getLsbD 13 = true ∧ (CFields.ofWord w).comp.documented = true) := by
  rw [← and_assoc, ← ofWord_unused_eq_three_iff]
  cases h15 : w.getLsbD 15 with
  | false => simp [disassemble_of_aWord h15]
  | true =>
    rw [disassemble_of_cWord h15]
    split
    · next hu => simp [hu, Comp.documented]
    · next hu => simp [hu]

theorem disassemble_atValue (v : BitVec 15) :
    disassemble (encode (.atValue v)) = some ('@' :: Nat.toDigits 10 v.toNat) := by
  rw [disassemble_of_aWord (encode_atValue_bit15 v)]
  have hv : (encode (.atValue v)).toNat = v.toNat := by
    simp [encode, Nat.mod_eq_of_lt (show v.toNat < 65536 by omega)]
  rw [hv]

/-- A C word of a documented comp with bits 14..13 = 11 has the text of its parts. -/
theorem disassemble_toWord (r : CompRow) (d : Dest) (j : Jump) :
    disassemble (CFields.toWord ⟨3#2, r.comp, d, j⟩) = some (cText r d j) := by
  rw [disassemble_of_cWord (CFields.toWord_bit15 _), CFields.ofWord_toWord, if_pos rfl, CompRow.row?_comp]
  rfl

/-- Settles O47: the texts of A words and of C words are parsed back, and no other word has a text. -/
theorem assembleInvertsDisassemble : Obligations.AssembleInvertsDisassemble :=
  ⟨fun _ _ h => assemble_of_disassemble h, disassemble_isSome_iff, disassemble_atValue, disassemble_toWord⟩

end Sys2Proof.Machine

/-! ## Proofs: the A-instruction (40_a_instruction.md R70) -/

namespace Sys2Proof.Machine

theorem encode_atValue (v : BitVec 15) : encode (.atValue v) = v.setWidth 16 := rfl

/-- Settles O14: `exec_atValue` is the whole next state; the value loaded is the word itself, whose bit 15 is clear. -/
theorem atValueLoadsA : Obligations.AtValueLoadsA := by
  intro v s
  have hbit : (v.setWidth 16).getLsbD 15 = false := encode_atValue v ▸ encode_atValue_bit15 v
  have hval : (v.setWidth 16).toNat = v.toNat := BitVec.toNat_setWidth_of_le (by decide)
  exact ⟨exec_atValue v s, hbit, hval, encode_atValue v⟩

end Sys2Proof.Machine

/-! ## Proofs: the generic C-instruction (41_c_instruction.md R76) -/

namespace Sys2Proof.Machine

open Sys2Proof.Safety

theorem State.yOperand_regA (s : State) : s.yOperand .regA = s.regA := rfl

/-- The M operand by the address modulo 32768, as pseudocode R76 writes it. -/
theorem State.yOperand_memM (s : State) : s.yOperand .memM = s.ram.read (s.regA.toNat % 32768) := by
  rw [State.yOperand, State.memRead, effAddr_eq_mod]

/-- A C row whose comp is not executed only advances PC (30_encoding.md R58). -/
theorem exec_of_not_executed {i : Instr} {f : CFields} (h : i.cFields? = some f) {s : State}
    (hx : ¬ Executed f.comp s) : exec i s = .next { s with pc := s.pc + 1#16 } :=
  (exec_of_cFields? h s).trans (execC_of_not_executed hx f.dest f.jump)

/-- Settles O15: the pseudocode's `y` is the model's operand, so its `out` is `aluOut`; an executed comp then does what
every executed C row does, and any other is skipped. -/
theorem genericCInstruction : Obligations.GenericCInstruction := by
  intro u c d j s y out
  have hf : (Instr.cGeneric u c d j).cFields? = some ⟨u, c, d, j⟩ := rfl
  have hy : y = s.yOperand c.y := by
    cases hc : c.y
    case regA => simp only [y, hc, State.yOperand_regA]
    case memM => simp only [y, hc, State.yOperand_memM]
  have hout : out = aluOut c s := by rw [aluOut, ← hy]
  refine ⟨fun hx => ?_, exec_of_not_executed hf⟩
  rw [hout]
  exact does_of_cFields? hf hx

end Sys2Proof.Machine

/-! ## Proofs: comps, undocumented and documented (42_alu_comp.md R93, R100 to R129) -/

namespace Sys2Proof.Machine

open Sys2Proof.Safety

/-! ### Undocumented comps under UNDOC_COMP = NOP -/

theorem not_executed_of_nop {c : Comp} {s : State} (hc : ∀ r : CompRow, r.comp ≠ c) (hs : s.cfg.undocComp = .nop) :
    ¬ Executed c s := by
  rintro (hdoc | halu)
  · obtain ⟨r, hr⟩ := (Comp.documented_iff c).mp hdoc
    exact hc r hr
  · cases hs.symm.trans halu

/-- Settles O16: the comp is not executed, and each of the rows has the fields `u`, `c`, `d`, `j`. -/
theorem undocumentedCompIsANoOpUnderNop : Obligations.UndocumentedCompIsANoOpUnderNop := by
  intro u c d j s hc hs
  have hx : ¬ Executed c s := not_executed_of_nop hc hs
  have hgen : (Instr.cGeneric u c d j).cFields? = some ⟨u, c, d, j⟩ := rfl
  exact ⟨exec_of_not_executed hgen hx, exec_of_not_executed (d.cFields?_instr u c j) hx,
    exec_of_not_executed (j.cFields?_instr u c d) hx⟩

/-! ### The conditions of the ALU output -/

theorem isNeg_iff_toNat (out : Word) : isNeg out = true ↔ 0x8000 ≤ out.toNat := by
  rw [isNeg_iff, BitVec.toInt_neg_iff]; omega

theorem isZero_iff_eq (out : Word) : isZero out = true ↔ out = 0x0000#16 := beq_iff_eq

theorem isPos_iff_toNat (out : Word) : isPos out = true ↔ 0x0001 ≤ out.toNat ∧ out.toNat ≤ 0x7FFF := by
  rw [isPos_iff, BitVec.toInt_eq_toNat_cond]
  split <;> omega

/-- `ps` is defined as neither of the others, so all that is to be excluded is `ng` together with `zr`. -/
theorem count_conditions (out : Word) : [isNeg out, isZero out, isPos out].count true = 1 := by
  have hexcl : ¬ (isNeg out = true ∧ isZero out = true) := by
    rw [isNeg_iff, isZero_iff]; omega
  rw [isPos]
  cases hn : isNeg out <;> cases hz : isZero out
  case true.true => exact absurd ⟨hn, hz⟩ hexcl
  all_goals rfl

theorem jumpTaken_eq_decide (j : Jump) (out : Word) : jumpTaken j out =
    ((j.neg && decide (out.toInt < 0)) || (j.zero && decide (out.toInt = 0)) || (j.pos && decide (0 < out.toInt))) := by
  have hneg : isNeg out = decide (out.toInt < 0) := Bool.eq_iff_iff.mpr (by rw [isNeg_iff, decide_eq_true_iff])
  have hzero : isZero out = decide (out.toInt = 0) := Bool.eq_iff_iff.mpr (by rw [isZero_iff, decide_eq_true_iff])
  have hpos : isPos out = decide (0 < out.toInt) := Bool.eq_iff_iff.mpr (by rw [isPos_iff, decide_eq_true_iff])
  rw [jumpTaken, hneg, hzero, hpos]

/-- Settles O18, each condition by its signed and by its unsigned reading. -/
theorem conditionsOfTheAluOutput : Obligations.ConditionsOfTheAluOutput := fun out =>
  ⟨isNeg_iff out, isNeg_iff_toNat out, isZero_iff_eq out, isPos_iff out, isPos_iff_toNat out, count_conditions out,
    fun j => jumpTaken_eq_decide j out⟩

/-! ### The control bits in two's complement

What `nx`, `ny` and `no` around an addition come to; an input that is zeroed and then complemented is `-1`. -/

theorem not_eq_neg_sub_one (x : Word) : ~~~x = -x - 1#16 := by
  rw [BitVec.neg_eq_not_add, BitVec.add_sub_cancel]

theorem not_not_add (x y : Word) : ~~~(~~~x + y) = x - y := by
  simp only [not_eq_neg_sub_one]; ring

theorem not_add_not (x y : Word) : ~~~(x + ~~~y) = y - x := by
  rw [BitVec.add_comm, not_not_add]

theorem add_not_zero (x : Word) : x + ~~~0#16 = x - 1#16 := by
  rw [BitVec.sub_eq_add_neg]; rfl

theorem sub_not_zero (x : Word) : x - ~~~0#16 = x + 1#16 := by
  rw [BitVec.sub_eq_add_neg]; rfl

theorem and_not_zero (x : Word) : x &&& ~~~0#16 = x := by
  rw [BitVec.not_zero, BitVec.and_allOnes]

theorem not_zero_and (y : Word) : ~~~0#16 &&& y = y := by
  rw [BitVec.not_zero, BitVec.allOnes_and]

theorem not_not_and_not (x y : Word) : ~~~(~~~x &&& ~~~y) = x ||| y := by
  rw [BitVec.not_and, BitVec.not_not, BitVec.not_not]

end Sys2Proof.Machine

namespace Sys2Proof

open Sys2Proof.Machine Sys2Proof.Safety

/-! ### The documented comps as operations -/

/-- What a mnemonic of 30_encoding.md table R55 says of the ALU's inputs, `x` being D and `y` being A or M. -/
def CompRow.value (x y : Word) : CompRow → Word
  | .zero => 0x0000#16
  | .one => 0x0001#16
  | .negOne => 0xFFFF#16
  | .d => x
  | .a | .m => y
  | .notD => ~~~x
  | .notA | .notM => ~~~y
  | .negD => -x
  | .negA | .negM => -y
  | .dPlus1 => x + 1#16
  | .aPlus1 | .mPlus1 => y + 1#16
  | .dMinus1 => x - 1#16
  | .aMinus1 | .mMinus1 => y - 1#16
  | .dPlusA | .dPlusM => x + y
  | .dMinusA | .dMinusM => x - y
  | .aMinusD | .mMinusD => y - x
  | .dAndA | .dAndM => x &&& y
  | .dOrA | .dOrM => x ||| y

/-- The control bits of each documented comp make the ALU compute what its mnemonic says. -/
theorem CompRow.alu_comp (r : CompRow) (x y : Word) : alu x y r.comp.ctl = r.value x y := by
  cases r with
  | zero | dPlusA | dPlusM | dAndA | dAndM => rfl
  | one => exact show ~~~(~~~0#16 + ~~~0#16) = 0x0001#16 by decide
  | negOne => exact show ~~~0#16 + 0#16 = 0xFFFF#16 by decide
  | d => exact and_not_zero x
  | a | m => exact not_zero_and y
  | notD => exact congrArg (~~~·) (and_not_zero x)
  | notA | notM => exact congrArg (~~~·) (not_zero_and y)
  | negD => exact (not_add_not x 0#16).trans (BitVec.zero_sub x)
  | negA | negM => exact (not_not_add 0#16 y).trans (BitVec.zero_sub y)
  | dPlus1 => exact (not_not_add x (~~~0#16)).trans (sub_not_zero x)
  | aPlus1 | mPlus1 => exact (not_add_not (~~~0#16) y).trans (sub_not_zero y)
  | dMinus1 => exact add_not_zero x
  | aMinus1 | mMinus1 => exact (BitVec.add_comm (~~~0#16) y).trans (add_not_zero y)
  | dMinusA | dMinusM => exact not_not_add x y
  | aMinusD | mMinusD => exact not_add_not x y
  | dOrA | dOrM => exact not_not_and_not x y

/-- The row of a documented comp gives its operation of D and the operand its `a` bit selects, under every setting of
UNDOC_COMP. -/
theorem CompRow.does_instr (r : CompRow) (u : BitVec 2) (d : Dest) (j : Jump) (s : State) :
    Does (r.instr u d j) s (r.value s.regD (s.yOperand r.comp.y)) d
      (Taken j (r.value s.regD (s.yOperand r.comp.y))) := by
  have hx : Executed r.comp s := .inl r.documented_comp
  have h := does_of_cFields? (r.cFields?_instr u d j) hx
  rwa [aluOut, r.alu_comp] at h

end Sys2Proof

namespace Sys2Proof.Machine

/-! ### The comp rows

The effects are `CompRow.does_instr`, row by row; the words are computed. -/

/-- Settles O19: the comps `0`, `1`, `-1`. -/
theorem constantComps : Obligations.ConstantComps :=
  ⟨fun u d j s =>
    ⟨CompRow.zero.does_instr u d j s, CompRow.one.does_instr u d j s, CompRow.negOne.does_instr u d j s⟩,
    by decide⟩

/-- Settles O20: the comps `D`, `A`, `M`. -/
theorem copyComps : Obligations.CopyComps :=
  ⟨fun u d j s => ⟨CompRow.d.does_instr u d j s, CompRow.a.does_instr u d j s, CompRow.m.does_instr u d j s⟩,
    by decide⟩

/-- Settles O21: the comps `!D`, `!A`, `!M`. -/
theorem complementComps : Obligations.ComplementComps :=
  ⟨fun u d j s =>
    ⟨CompRow.notD.does_instr u d j s, CompRow.notA.does_instr u d j s, CompRow.notM.does_instr u d j s⟩,
    by decide⟩

/-- Settles O22: the comps `-D`, `-A`, `-M`. -/
theorem negationComps : Obligations.NegationComps :=
  ⟨fun u d j s =>
    ⟨CompRow.negD.does_instr u d j s, CompRow.negA.does_instr u d j s, CompRow.negM.does_instr u d j s⟩,
    by decide⟩

/-- Settles O23: the comps `D+1`, `A+1`, `M+1`. -/
theorem incrementComps : Obligations.IncrementComps :=
  ⟨fun u d j s =>
    ⟨CompRow.dPlus1.does_instr u d j s, CompRow.aPlus1.does_instr u d j s, CompRow.mPlus1.does_instr u d j s⟩,
    by decide⟩

/-- Settles O24: the comps `D-1`, `A-1`, `M-1`. -/
theorem decrementComps : Obligations.DecrementComps :=
  ⟨fun u d j s =>
    ⟨CompRow.dMinus1.does_instr u d j s, CompRow.aMinus1.does_instr u d j s, CompRow.mMinus1.does_instr u d j s⟩,
    by decide⟩

/-- Settles O25: the comps `D+A`, `D+M`. -/
theorem sumComps : Obligations.SumComps :=
  ⟨fun u d j s => ⟨CompRow.dPlusA.does_instr u d j s, CompRow.dPlusM.does_instr u d j s⟩, by decide⟩

/-- Settles O26: the comps `D-A`, `A-D`, `D-M`, `M-D`. -/
theorem differenceComps : Obligations.DifferenceComps :=
  ⟨fun u d j s => ⟨CompRow.dMinusA.does_instr u d j s, CompRow.aMinusD.does_instr u d j s,
    CompRow.dMinusM.does_instr u d j s, CompRow.mMinusD.does_instr u d j s⟩, by decide⟩

/-- Settles O27: the comps `D&A`, `D|A`, `D&M`, `D|M`. -/
theorem logicComps : Obligations.LogicComps :=
  ⟨fun u d j s => ⟨CompRow.dAndA.does_instr u d j s, CompRow.dOrA.does_instr u d j s,
    CompRow.dAndM.does_instr u d j s, CompRow.dOrM.does_instr u d j s⟩, by decide⟩

end Sys2Proof.Machine

/-! ## Proofs: the destinations (43_dest.md R131 to R138) -/

namespace Sys2Proof

open Sys2Proof.Machine Sys2Proof.Safety

/-- The row of a destination writes the ALU output to exactly the registers its three enable bits name, for every comp
that is executed. -/
theorem Dest.does_instr (d : Dest) (u : BitVec 2) {c : Comp} (j : Jump) {s : State} (hx : Executed c s) :
    Does (d.instr u c j) s (aluOut c s) d (Taken j (aluOut c s)) :=
  does_of_cFields? (d.cFields?_instr u c j) hx

end Sys2Proof

namespace Sys2Proof.Machine

/-! ### The dest rows

The effects are `Dest.does_instr`, row by row; the words are computed. -/

/-- Settles O28: the destinations null, `D`, `A`, `AD`. -/
theorem destRowsWithoutStore : Obligations.DestRowsWithoutStore :=
  ⟨fun u _ j _ hx =>
    ⟨Dest.none.does_instr u j hx, Dest.D.does_instr u j hx, Dest.A.does_instr u j hx, Dest.AD.does_instr u j hx⟩,
    by decide⟩

/-- Settles O29: the destinations `M`, `MD`, `AM`, `AMD`. -/
theorem destRowsWithStore : Obligations.DestRowsWithStore :=
  ⟨fun u _ j _ hx =>
    ⟨Dest.M.does_instr u j hx, Dest.MD.does_instr u j hx, Dest.AM.does_instr u j hx, Dest.AMD.does_instr u j hx⟩,
    by decide⟩

end Sys2Proof.Machine

/-! ## Proofs: the jumps (44_jump.md R141 to R148, R152) -/

namespace Sys2Proof

open Sys2Proof.Machine Sys2Proof.Safety

/-! ### The jump mnemonics as signed conditions -/

/-- What a mnemonic of 30_encoding.md table R57 says of the ALU output. -/
def Jump.condition (out : Word) : Jump → Prop
  | ⟨false, false, false⟩ => False
  | ⟨false, false, true⟩ => 0 < out.toInt
  | ⟨false, true, false⟩ => out = 0x0000#16
  | ⟨false, true, true⟩ => 0 ≤ out.toInt
  | ⟨true, false, false⟩ => out.toInt < 0
  | ⟨true, false, true⟩ => out ≠ 0x0000#16
  | ⟨true, true, false⟩ => out.toInt ≤ 0
  | ⟨true, true, true⟩ => True

/-- The three enable bits of each jump make up the condition its mnemonic names: one bit is its own condition, and two or
three join the negative, zero and positive outputs into a weak inequality, into "not zero", or into all outputs. -/
theorem Jump.taken_iff_condition (j : Jump) (out : Word) : Taken j out ↔ j.condition out := by
  have hzero : out = 0x0000#16 ↔ out.toInt = 0 := (isZero_iff_eq out).symm.trans (isZero_iff out)
  match j with
  | ⟨false, false, false⟩ | ⟨true, false, false⟩ | ⟨false, true, false⟩ | ⟨false, false, true⟩ =>
    simp [Taken, Jump.condition, hzero]
  | ⟨false, true, true⟩ | ⟨true, false, true⟩ | ⟨true, true, false⟩ | ⟨true, true, true⟩ =>
    simp only [Taken, Jump.condition, hzero, ne_eq, true_and, false_and, false_or, or_false, reduceCtorEq, iff_true]
    omega

/-- The row of a jump writes the ALU output as every executed C row does, and jumps exactly on its condition. -/
theorem Jump.does_instr (j : Jump) (u : BitVec 2) {c : Comp} (d : Dest) {s : State} (hx : Executed c s) :
    Does (j.instr u c d) s (aluOut c s) d (j.condition (aluOut c s)) := by
  have h := does_of_cFields? (j.cFields?_instr u c d) hx
  rwa [j.taken_iff_condition] at h

end Sys2Proof

namespace Sys2Proof.Machine

open Sys2Proof.Safety

/-! ### The jump rows

The effects are `Jump.does_instr`, row by row; the words are computed. -/

/-- Settles O30: the jumps null, `JGT`, `JEQ`, `JGE`, `JLT`, `JNE`, `JLE`, `JMP`. -/
theorem jumpRows : Obligations.JumpRows :=
  ⟨fun u _ d _ hx =>
    ⟨Jump.none.does_instr u d hx, Jump.JGT.does_instr u d hx, Jump.JEQ.does_instr u d hx, Jump.JGE.does_instr u d hx,
      Jump.JLT.does_instr u d hx, Jump.JNE.does_instr u d hx, Jump.JLE.does_instr u d hx,
      Jump.JMP.does_instr u d hx⟩,
    by decide⟩

/-! ### JUMP_A_SAMPLE

An instruction that does not write A leaves the A of before in place, so both settings name the same target. -/

/-- Where A still is what it was, the target is A under either setting. -/
theorem State.jumpTarget_regA (s : State) : s.jumpTarget s.regA = s.regA := by
  rw [State.jumpTarget]
  cases s.cfg.jumpASample <;> rfl

section WithoutA

variable {d : Dest} (hA : d.toA = false)
include hA

theorem afterC_pc_of_not_toA (s : State) (c : Comp) (j : Jump) :
    (s.afterC c d j).pc = if jumpTaken j (aluOut c s) then s.regA else s.pc + 1#16 := by
  have hreg : (s.writeDest d (aluOut c s)).regA = s.regA := by rw [State.writeDest_regA, hA]; rfl
  have htarget := (s.writeDest d (aluOut c s)).jumpTarget_regA
  rw [hreg] at htarget
  rw [State.afterC_pc, htarget]

/-- An executed C-instruction that does not write A, under another JUMP_A_SAMPLE: the same effect. -/
theorem afterC_withJumpASample (s : State) (c : Comp) (j : Jump) (p : JumpASample) :
    ({ s with cfg := { s.cfg with jumpASample := p } } : State).afterC c d j =
      { s.afterC c d j with cfg := { s.cfg with jumpASample := p } } := by
  have hout : aluOut c { s with cfg := { s.cfg with jumpASample := p } } = aluOut c s := rfl
  apply State.eq_of_fields
  case hpc => simp only [afterC_pc_of_not_toA hA, hout]
  all_goals simp [hout]

/-- A C-instruction that does not write A, executed or skipped, under another JUMP_A_SAMPLE. -/
theorem execC_withJumpASample {s t : State} {c : Comp} {j : Jump} (h : execC c d j s = .next t) (p : JumpASample) :
    execC c d j { s with cfg := { s.cfg with jumpASample := p } } =
      .next { t with cfg := { t.cfg with jumpASample := p } } := by
  by_cases hx : Executed c s
  · cases (execC_of_executed hx d j).symm.trans h
    rw [State.afterC_cfg, ← afterC_withJumpASample hA s c j p]
    exact execC_of_executed (s := { s with cfg := { s.cfg with jumpASample := p } }) hx d j
  · cases (execC_of_not_executed hx d j).symm.trans h
    exact execC_of_not_executed (s := { s with cfg := { s.cfg with jumpASample := p } }) hx d j

end WithoutA

/-- A C-instruction completes, whether its comp is executed or skipped. -/
theorem execC_completes (c : Comp) (d : Dest) (j : Jump) (s : State) : ∃ t, execC c d j s = .next t := by
  obtain ⟨-, he⟩ | ⟨-, he⟩ := execC_cases c d j s
  · exact ⟨_, he⟩
  · exact ⟨_, he⟩

/-- Settles O31: without the A destination the step under POST is the step under PRE; with it, a taken jump goes to the
output under POST and to the old A under PRE. -/
theorem jumpSampleMattersOnlyWhenAIsWritten : Obligations.JumpSampleMattersOnlyWhenAIsWritten := by
  constructor
  · intro u c d j s hA
    obtain ⟨t, ht⟩ := execC_completes c d j { s with cfg := { s.cfg with jumpASample := .post } }
    exact ⟨t, ht, execC_withJumpASample hA ht .pre⟩
  · intro u c d j s hA hx htaken
    have hf : (Instr.cGeneric u c d j).cFields? = some ⟨u, c, d, j⟩ := rfl
    obtain ⟨t, ht, hwrites, hpc⟩ := does_of_cFields? hf hx
    have hreg : t.regA = aluOut c s := hwrites.regA.trans (if_pos hA)
    exact ⟨t, ht, hreg, fun hpost => (hpc.post htaken hpost).trans hreg, hpc.pre htaken⟩

end Sys2Proof.Machine

/-! ## Proofs: the host's operations between and around the steps (47_host_operations.md) -/

namespace Sys2Proof.Machine

open Sys2Proof.Safety

/-! ### step(n) (R164, R165) -/

/-- Every instruction completes: `@value` loads A, and each C row is the C-instruction on its fields. -/
theorem exec_completes (i : Instr) (s : State) : ∃ t, exec i s = .next t := by
  obtain ⟨v, hv⟩ | ⟨f, hf, -⟩ := i.kind
  · rw [hv]
    exact ⟨_, exec_atValue v s⟩
  · rw [exec_of_cFields? hf]
    exact execC_completes f.comp f.dest f.jump s

/-- The only state without a step is the stuck one (10_state.md R17). -/
theorem stuck_or_step_next (s : State) : Stuck s ∨ ∃ t, step s = .next t := by
  by_cases h : Stuck s
  · exact .inl h
  · obtain ⟨w, hw⟩ := fetch_of_not_stuck h
    rw [step_of_fetch hw]
    exact .inr (exec_completes (decode w) s)

/-- A stuck state stays as it is through both calls; from any other state both sides begin with the same step. -/
theorem stepN_stepN (n m : Nat) (s : State) : stepN m (stepN n s) = stepN (n + m) s := by
  induction n generalizing s with
  | zero => rw [Nat.zero_add]; rfl
  | succ n ih =>
    obtain h | ⟨t, ht⟩ := stuck_or_step_next s
    · simp only [stepN_of_stuck h]
    · rw [Nat.succ_add, stepN_succ_of_next ht, stepN_succ_of_next ht, ih]

theorem stepN_one_iterate (n : Nat) (s : State) : (stepN 1)^[n] s = stepN n s := by
  induction n generalizing s with
  | zero => rfl
  | succ n ih => rw [Function.iterate_succ_apply, ih, stepN_stepN, Nat.add_comm]

/-- Settles O40: calls of `step(n)` add up, and so do `n` calls of `step(1)`. -/
theorem stepsCompose : Obligations.StepsCompose :=
  fun n m s => ⟨stepN_one_iterate n s, stepN_stepN n m s⟩

/-! ### set_keyboard (R167) -/

section Keyboard

variable (code : Int) (s : State)

@[simp] theorem setKeyboard_regA : (setKeyboard code s).regA = s.regA := rfl
@[simp] theorem setKeyboard_regD : (setKeyboard code s).regD = s.regD := rfl
@[simp] theorem setKeyboard_pc : (setKeyboard code s).pc = s.pc := rfl
@[simp] theorem setKeyboard_rom : (setKeyboard code s).rom = s.rom := rfl
@[simp] theorem setKeyboard_cfg : (setKeyboard code s).cfg = s.cfg := rfl

theorem setKeyboard_ram_read (i : Nat) :
    (setKeyboard code s).ram.read i = if i = keyboardCell then BitVec.ofInt 16 code else s.ram.read i := by
  rw [setKeyboard_ram, Memory.read_write]

end Keyboard

/-- The word of any code, negative ones too, is the code modulo 65536. -/
theorem toNat_ofInt_word (code : Int) : ((BitVec.ofInt 16 code).toNat : Int) = code % 65536 := by
  rw [BitVec.toNat_ofInt]
  exact Int.toNat_of_nonneg (Int.emod_nonneg code (by decide))

/-- Settles O41: the keyboard cell holds the word of the code, and the write leaves every other cell and field. -/
theorem setKeyboardWritesOneCell : Obligations.SetKeyboardWritesOneCell := by
  intro code s
  refine ⟨?_, fun i hi => ?_, setKeyboard_regA code s, setKeyboard_regD code s, setKeyboard_pc code s,
    setKeyboard_rom code s, setKeyboard_cfg code s⟩
  · rw [setKeyboard_ram_read, keyboardCell, if_pos rfl, toNat_ofInt_word]
  · rw [setKeyboard_ram_read, keyboardCell, if_neg hi]

/-! ### cpu_state (R168) -/

/-- The `m` of the view is the cell that M names in an instruction. -/
theorem State.cpuView_m (s : State) : s.cpuView.m = s.ram.read (effAddr s.regA) := rfl

/-- Settles O42: the registers are shown as they are, and the mask of M's address is the remainder modulo 32768. -/
theorem cpuViewReadsTheState : Obligations.CpuViewReadsTheState := by
  intro s
  refine ⟨rfl, rfl, rfl, ?_⟩
  rw [State.cpuView_m, effAddr_eq_mod]

end Sys2Proof.Machine

/-! ## Proofs: the halt loop (70_reset_and_hazards.md R206) -/

namespace Sys2Proof.Machine

open Sys2Proof.Safety

/-! ### The test -/

/-- The word of `@l` is `l`, where the immediate holds `l`. -/
theorem encode_atValue_ofNat {l : Nat} (hl : l ≤ 32767) :
    encode (.atValue (BitVec.ofNat 15 l)) = BitVec.ofNat 16 l := by
  rw [encode_atValue, BitVec.setWidth_ofNat_of_le_of_lt (by decide) (by omega)]

theorem eq_ofNat_iff_toNat {w : Word} {l : Nat} (hl : l ≤ 32767) : w = BitVec.ofNat 16 l ↔ w.toNat = l := by
  rw [BitVec.toNat_eq, BitVec.toNat_ofNat, Nat.mod_eq_of_lt (by omega)]

/-- For one index the test is the rule's predicate, condition by condition. -/
theorem State.haltLoopAt_iff (s : State) (l : Nat) : s.haltLoopAt l = true ↔ HaltLoopIndex s l := by
  unfold State.haltLoopAt
  split
  · next w v hw hv =>
    simp only [Bool.and_eq_true, Bool.or_eq_true, decide_eq_true_eq, beq_iff_eq, isHaltJump_iff]
    constructor
    · rintro ⟨⟨⟨hl, hload⟩, u, r, hjump⟩, hpc⟩
      rw [eq_ofNat_iff_toNat hl] at hpc
      obtain ⟨hrom, -⟩ := List.getElem?_eq_some_iff.mp hv
      exact ⟨hrom, hl, by rw [hw, hload, encode_atValue_ofNat hl], ⟨u, r, by rw [hv, hjump]⟩, hpc⟩
    · rintro ⟨-, hl, hload, ⟨u, r, hjump⟩, hpc⟩
      rw [← eq_ofNat_iff_toNat (w := s.regA) hl] at hpc
      rw [encode_atValue_ofNat hl] at hload
      exact ⟨⟨⟨hl, Option.some.inj (hw.symm.trans hload)⟩, u, r, Option.some.inj (hv.symm.trans hjump)⟩, hpc⟩
  · next hnone =>
    constructor
    · intro h
      cases h
    · rintro ⟨-, -, hload, ⟨u, r, hjump⟩, -⟩
      exact (hnone _ _ hload hjump).elim

/-- The two indices tried are the only ones condition (3) allows. -/
theorem State.haltLoop_iff (s : State) : s.haltLoop = true ↔ ∃ l, HaltLoopIndex s l := by
  simp only [State.haltLoop, Bool.or_eq_true, State.haltLoopAt_iff]
  constructor
  · rintro (h | h)
    · exact ⟨_, h⟩
    · exact ⟨_, h⟩
  · rintro ⟨l, h⟩
    obtain hpc | ⟨hpc, -⟩ := h.here
    · exact .inl (hpc ▸ h)
    · have hl : s.pc.toNat - 1 = l := by omega
      exact .inr (hl ▸ h)

/-! ### The run

`LoopsTo l n s t` says what `n` steps in the halt loop with index `l` make of `s`. It holds of no steps, it
keeps `HaltLoopIndex`, and each step from there counts one more. -/

/-- `t` is `s` but for A and PC: PC has alternated `n` times between `l` and `l + 1`, and A is `l` once an `@l` has been
executed. -/
structure LoopsTo (l n : Nat) (s t : State) : Prop where
  ram  : t.ram = s.ram
  regD : t.regD = s.regD
  rom  : t.rom = s.rom
  cfg  : t.cfg = s.cfg
  pc   : t.pc.toNat = if (s.pc.toNat - l + n) % 2 = 0 then l else l + 1
  regA : s.pc.toNat = l + 1 ∨ 1 ≤ n → t.regA.toNat = l

section Loop

variable {s t : State} {l : Nat}

theorem LoopsTo.zero (h : HaltLoopIndex s l) : LoopsTo l 0 s s := by
  refine ⟨rfl, rfl, rfl, rfl, ?_, fun hA => ?_⟩
  · obtain hpc | ⟨hpc, -⟩ := h.here <;> simp [hpc]
  · obtain hpc | ⟨-, hA⟩ := h.here
    · omega
    · exact hA

theorem LoopsTo.add_one {n : Nat} {r : State} (h : LoopsTo l n s t) (h₁ : LoopsTo l 1 t r) :
    LoopsTo l (n + 1) s r := by
  refine ⟨h₁.ram.trans h.ram, h₁.regD.trans h.regD, h₁.rom.trans h.rom, h₁.cfg.trans h.cfg, ?_,
    fun _ => h₁.regA (.inr le_rfl)⟩
  rw [h₁.pc, h.pc]
  split_ifs <;> omega

/-- The loop stays in the loop: the ROM is the same, and A is `l` whenever PC is `l + 1`. -/
theorem LoopsTo.haltLoopIndex {n : Nat} (hs : HaltLoopIndex s l) (h : LoopsTo l n s t) : HaltLoopIndex t l := by
  obtain ⟨hrom, hl, hload, hjump, hpc⟩ := hs
  rw [← h.rom] at hrom hload hjump
  refine ⟨hrom, hl, hload, hjump, ?_⟩
  obtain heven | hodd := Nat.mod_two_eq_zero_or_one (s.pc.toNat - l + n)
  · exact .inl (h.pc.trans (if_pos heven))
  · have hA : s.pc.toNat = l + 1 ∨ 1 ≤ n := by omega
    exact .inr ⟨h.pc.trans (if_neg (by omega)), h.regA hA⟩

/-- At the loop's `@l`: A receives `l`, and PC moves on without wrapping. -/
theorem step_of_haltLoop_load (h : HaltLoopIndex s l) (hpc : s.pc.toNat = l) :
    ∃ t, step s = .next t ∧ LoopsTo l 1 s t := by
  have hl := h.small
  have hw : s.fetch = some (encode (.atValue (BitVec.ofNat 15 l))) := by
    rw [State.fetch, hpc, h.load]
  have hstep := step_of_fetch hw
  rw [decode_encode_atValue, exec_atValue] at hstep
  refine ⟨_, hstep, rfl, rfl, rfl, rfl, ?_, fun _ => ?_⟩
  · have hnext : (s.pc + 1#16).toNat = l + 1 := by bv_omega
    simp [hpc, hnext]
  · exact (eq_ofNat_iff_toNat hl).mp (encode_atValue_ofNat hl)

/-- At the loop's jump, where A is `l`: without a destination the jump changes PC alone, and its target is A. -/
theorem step_of_haltLoop_jump (h : HaltLoopIndex s l) (hpc : s.pc.toNat = l + 1) (hA : s.regA.toNat = l) :
    ∃ t, step s = .next t ∧ LoopsTo l 1 s t := by
  obtain ⟨u, r, hjump⟩ := h.jump
  have hw : s.fetch = some (CFields.toWord ⟨u, r.comp, .none, .JMP⟩) := by
    rw [State.fetch, hpc, hjump]
  have hstep := step_of_fetch hw
  rw [decode_toWord, exec_of_cFields? (CFields.cFields?_instr _), execC_of_executed (.inl r.documented_comp)] at hstep
  have htaken : jumpTaken .JMP (aluOut r.comp s) = true :=
    (jumpTaken_iff _ _).mpr ((Jump.JMP.taken_iff_condition _).mpr trivial)
  have htarget : (s.afterC r.comp .none .JMP).pc = s.regA := by
    rw [afterC_pc_of_not_toA rfl, if_pos htaken]
  refine ⟨_, hstep, by simp [Dest.none], by simp [Dest.none], by simp, by simp, ?_, fun _ => ?_⟩
  · rw [htarget, hA]
    simp [hpc]
  · simpa [Dest.none] using hA

theorem step_of_haltLoopIndex (h : HaltLoopIndex s l) : ∃ t, step s = .next t ∧ LoopsTo l 1 s t := by
  obtain hpc | ⟨hpc, hA⟩ := h.here
  · exact step_of_haltLoop_load h hpc
  · exact step_of_haltLoop_jump h hpc hA

theorem stepN_of_haltLoopIndex (h : HaltLoopIndex s l) (n : Nat) : LoopsTo l n s (stepN n s) := by
  induction n with
  | zero => exact .zero h
  | succ n ih =>
    obtain ⟨t, hstep, ht⟩ := step_of_haltLoopIndex (ih.haltLoopIndex h)
    have hsucc : stepN (n + 1) s = t := (stepN_stepN n 1 s).symm.trans (stepN_succ_of_next hstep 0)
    rw [hsucc]
    exact ih.add_one ht

end Loop

/-- Settles O44: the test is the predicate, and from a state of the loop `n` steps are `n` alternations, which end in a
state of the same loop. -/
theorem haltLoopRunsForever : Obligations.HaltLoopRunsForever := by
  refine ⟨State.haltLoop_iff, fun s l n h => ?_⟩
  have hn : LoopsTo l n s (stepN n s) := stepN_of_haltLoopIndex h n
  have ht : HaltLoopIndex (stepN n s) l := hn.haltLoopIndex h
  obtain ⟨t', hstep, -⟩ := step_of_haltLoopIndex ht
  exact ⟨ht, ⟨t', hstep⟩, hn.ram, hn.regD, hn.rom, hn.cfg, hn.pc, hn.regA⟩

end Sys2Proof.Machine

/-! ## Proofs: the decoder and the encoder (30_encoding.md R50 to R58)

A well-formed instruction is the row its word is shown as; each way to be well formed is one branch of `CFields.instr`. -/

namespace Sys2Proof

open Sys2Proof.Machine

/-! ### The branches of the decoder's choice of a row -/

section Rows

variable {i : Instr} {u : BitVec 2} {c : Comp} {d : Dest} {j : Jump}

theorem Dest.agreesWith_iff : d.agreesWith j = true ↔ (d = .none ↔ j = .none) := by
  rw [Dest.agreesWith, beq_iff_eq, Bool.eq_iff_iff, beq_iff_eq, beq_iff_eq]

theorem Comp.row?_eq_none (hc : c.documented = false) : c.row? = none := by
  rwa [Comp.documented, Option.isSome_eq_false_iff, Option.isNone_iff_eq_none] at hc

/-- A documented comp with both a destination and a jump, or with neither: the comp row. -/
theorem CFields.instr_of_documented (r : CompRow) (h : d.agreesWith j = true) :
    CFields.instr ⟨u, r.comp, d, j⟩ = r.instr u d j := by
  rw [Dest.agreesWith_iff] at h
  by_cases hd : d = .none
  · simp [CFields.instr, CompRow.row?_comp, hd, h.mp hd]
  · simp [CFields.instr, CompRow.row?_comp, hd, mt h.mpr hd]

/-- A destination without a jump: the dest row. -/
theorem CFields.instr_of_dest (hd : d ≠ .none) (hj : j = .none) : CFields.instr ⟨u, c, d, j⟩ = d.instr u c j := by
  simp [CFields.instr, hd, hj]

/-- A jump without a destination: the jump row. -/
theorem CFields.instr_of_jump (hj : j ≠ .none) (hd : d = .none) : CFields.instr ⟨u, c, d, j⟩ = j.instr u c d := by
  simp [CFields.instr, hd, hj]

theorem decode_encode_of_instr {f : CFields} (hf : i.cFields? = some f) (h : f.instr = i) :
    decode (encode i) = i := by
  rw [encode_of_cFields? hf, decode_toWord, h]

theorem decode_encode_comp {r : CompRow} (hf : i.cFields? = some ⟨u, r.comp, d, j⟩) (hi : r.instr u d j = i)
    (h : d.agreesWith j = true) : decode (encode i) = i :=
  decode_encode_of_instr hf ((CFields.instr_of_documented r h).trans hi)

theorem decode_encode_dest (hf : i.cFields? = some ⟨u, c, d, j⟩) (hi : d.instr u c j = i) (hd : d ≠ .none)
    (h : (j == .none) = true) : decode (encode i) = i :=
  decode_encode_of_instr hf ((CFields.instr_of_dest hd (eq_of_beq h)).trans hi)

theorem decode_encode_jump (hf : i.cFields? = some ⟨u, c, d, j⟩) (hi : j.instr u c d = i) (hj : j ≠ .none)
    (h : (d == .none) = true) : decode (encode i) = i :=
  decode_encode_of_instr hf ((CFields.instr_of_jump hj (eq_of_beq h)).trans hi)

theorem decode_encode_cGeneric (h : (Instr.cGeneric u c d j).wellFormed = true) :
    decode (encode (.cGeneric u c d j)) = .cGeneric u c d j := by
  simp only [Instr.wellFormed, Bool.and_eq_true, Bool.not_eq_true', bne_iff_ne] at h
  obtain ⟨⟨hc, hd⟩, hj⟩ := h
  exact decode_encode_of_instr rfl (by simp [CFields.instr, hd, hj, Comp.row?_eq_none hc])

theorem decode_encode_destNull (h : (Instr.destNull u c j).wellFormed = true) :
    decode (encode (.destNull u c j)) = .destNull u c j := by
  simp only [Instr.wellFormed, Bool.and_eq_true, Bool.not_eq_true', beq_iff_eq] at h
  obtain ⟨⟨hc, hy⟩, hj⟩ := h
  exact decode_encode_of_instr rfl (by simp [CFields.instr, hj, hy, Comp.row?_eq_none hc])

theorem decode_encode_jumpNull (h : (Instr.jumpNull u c d).wellFormed = true) :
    decode (encode (.jumpNull u c d)) = .jumpNull u c d := by
  simp only [Instr.wellFormed, Bool.and_eq_true, Bool.not_eq_true', beq_iff_eq] at h
  obtain ⟨⟨hc, hy⟩, hd⟩ := h
  exact decode_encode_of_instr rfl (by simp [CFields.instr, hd, hy, Comp.row?_eq_none hc])

end Rows

/-- Settles O6: by the kind of the instruction's row; the check of each kind is the branch of the decoder that shows it. -/
theorem decodeOfEncodeIsTheInstruction : Obligations.DecodeOfEncodeIsTheInstruction := by
  intro i h
  cases i with
  | atValue v => exact decode_encode_atValue v
  | cGeneric => exact decode_encode_cGeneric h
  | destNull => exact decode_encode_destNull h
  | jumpNull => exact decode_encode_jumpNull h
  | destM | destD | destMD | destA | destAM | destAD | destAMD =>
    exact decode_encode_dest rfl rfl (by decide) h
  | jumpJGT | jumpJEQ | jumpJGE | jumpJLT | jumpJNE | jumpJLE | jumpJMP =>
    exact decode_encode_jump rfl rfl (by decide) h
  | _ => exact decode_encode_comp rfl rfl h

/-! ### The round trip from the word -/

theorem CompRow.wellFormed_instr (r : CompRow) (u : BitVec 2) (d : Dest) (j : Jump) :
    (r.instr u d j).wellFormed = d.agreesWith j := by
  cases r <;> rfl

theorem Dest.wellFormed_instr {d : Dest} (hd : d ≠ .none) (u : BitVec 2) (c : Comp) (j : Jump) :
    (d.instr u c j).wellFormed = (j == .none) := by
  rcases d with ⟨_ | _, _ | _, _ | _⟩
  case false.false.false => exact absurd rfl hd
  all_goals rfl

theorem Jump.wellFormed_instr {j : Jump} (hj : j ≠ .none) (u : BitVec 2) (c : Comp) (d : Dest) :
    (j.instr u c d).wellFormed = (d == .none) := by
  rcases j with ⟨_ | _, _ | _, _ | _⟩
  case false.false.false => exact absurd rfl hj
  all_goals rfl

theorem Comp.documented_of_row?_eq_none {c : Comp} (h : c.row? = none) : c.documented = false := by
  rw [Comp.documented, h]; rfl

/-- The row a C word is shown as is well formed. -/
theorem CFields.wellFormed_instr (f : CFields) : f.instr.wellFormed = true := by
  obtain ⟨u, c, d, j⟩ := f
  unfold CFields.instr
  dsimp only
  split
  · next hd =>
    subst hd
    split
    · next hj =>
      subst hj
      split
      · next r _ => exact r.wellFormed_instr u .none .none
      · next hr =>
        have hc := Comp.documented_of_row?_eq_none hr
        split
        · next hy => simp [Instr.wellFormed, hc, hy]
        · next hy => simp [Instr.wellFormed, hc, hy]
    · next hj => rw [Jump.wellFormed_instr hj, beq_self_eq_true]
  · next hd =>
    split
    · next hj => rw [Dest.wellFormed_instr hd, beq_iff_eq, hj]
    · next hj =>
      split
      · next r _ => rw [r.wellFormed_instr, Dest.agreesWith_iff]; simp [hd, hj]
      · next hr => simp [Instr.wellFormed, Comp.documented_of_row?_eq_none hr, hd, hj]

theorem decode_of_aWord {w : Word} (h : w.getLsbD 15 = false) : decode w = .atValue (w.extractLsb' 0 15) := by
  rw [decode, if_neg (Bool.eq_false_iff.mp h)]

theorem decode_of_cWord {w : Word} (h : w.getLsbD 15 = true) : decode w = (CFields.ofWord w).instr := by
  rw [decode, if_pos h]

theorem CFields.instr_ne_atValue (f : CFields) (v : BitVec 15) : f.instr ≠ .atValue v := by
  intro h
  have hf := f.cFields?_instr
  rw [h] at hf
  cases hf

/-- The low 15 bits of an A word are the whole word (R51). -/
theorem encode_atValue_extract {w : Word} (h : w.getLsbD 15 = false) :
    encode (.atValue (w.extractLsb' 0 15)) = w := by
  have hw : w.toNat < 2 ^ 15 := Nat.lt_succ_of_le (toNat_le_of_aWord h)
  apply BitVec.eq_of_toNat_eq
  rw [encode_atValue, BitVec.toNat_setWidth_of_le (by decide), BitVec.extractLsb'_toNat, Nat.shiftRight_zero,
    Nat.mod_eq_of_lt hw]

/-- Settles O7: an A word by its low 15 bits, a C word by its fields and the row they are shown as. -/
theorem everyWordIsAWellFormedInstruction : Obligations.EveryWordIsAWellFormedInstruction := by
  intro w
  cases h : w.getLsbD 15 with
  | false =>
    rw [decode_of_aWord h]
    exact ⟨rfl, encode_atValue_extract h, iff_of_true ⟨_, rfl⟩ rfl⟩
  | true =>
    rw [decode_of_cWord h]
    refine ⟨CFields.wellFormed_instr _, ?_, iff_of_false ?_ (by decide)⟩
    · rw [encode_of_cFields? (CFields.cFields?_instr _), CFields.toWord_ofWord h]
    · rintro ⟨v, hv⟩
      exact CFields.instr_ne_atValue _ v hv

end Sys2Proof

/-! ## Proofs: what a word executes as (30_encoding.md R50, R53, R68; 41_c_instruction.md R75) -/

namespace Sys2Proof.Machine

open Sys2Proof.Safety

/-- Settles O5: each word is decoded by computation. -/
theorem knownWordsDecode : Obligations.KnownWordsDecode := by
  unfold Obligations.KnownWordsDecode
  decide

/-- The row the decoder chooses executes as the row the word was written as. -/
theorem exec_decode_encode (i : Instr) (s : State) : exec (decode (encode i)) s = exec i s := by
  obtain ⟨v, rfl⟩ | ⟨f, hf, he⟩ := i.kind
  · rw [decode_encode_atValue]
  · rw [he, decode_toWord, exec_of_cFields? f.cFields?_instr, exec_of_cFields? hf]

/-- Settles O8: both instructions execute as the one their common word decodes to. -/
theorem allRowsOfAWordExecuteAlike : Obligations.AllRowsOfAWordExecuteAlike := by
  intro i k s h
  refine ⟨?_, exec_decode_encode i s⟩
  rw [← exec_decode_encode i, h, exec_decode_encode]

/-- Settles O10: `step` only fetches, and a well-formed instruction is what its word decodes to. -/
theorem stepRunsTheDecodedInstruction : Obligations.StepRunsTheDecodedInstruction := by
  refine fun s => ⟨fun i hi hw => ?_, fun w hw => step_of_fetch hw⟩
  rw [step_of_fetch hw, decodeOfEncodeIsTheInstruction i hi]

/-! ### The fields of a C word bit by bit (table R52) -/

/-- A C word executes as the generic C-instruction on bits 12, 11..6, 5..3 and 2..0; bits 14..13 do not occur. -/
theorem exec_decode_of_cWord {w : Word} (h : w.getLsbD 15 = true) (s : State) :
    exec (decode w) s = execC
      ⟨if w.getLsbD 12 then .memM else .regA,
        ⟨w.getLsbD 11, w.getLsbD 10, w.getLsbD 9, w.getLsbD 8, w.getLsbD 7, w.getLsbD 6⟩⟩
      ⟨w.getLsbD 5, w.getLsbD 4, w.getLsbD 3⟩ ⟨w.getLsbD 2, w.getLsbD 1, w.getLsbD 0⟩ s := by
  have hy : YSel.ofBit (w.getLsbD 12) = if w.getLsbD 12 then .memM else .regA := by
    cases w.getLsbD 12 <;> rfl
  rw [decode_of_cWord h, exec_of_cFields? (CFields.cFields?_instr _), CFields.ofWord, hy]
  simp [AluCtl.ofCode, Dest.ofCode, Jump.ofCode]

/-- Words that agree under a mask agree in each bit of the mask. -/
theorem getLsbD_eq_of_and_eq {w v mask : Word} (h : w &&& mask = v &&& mask) {i : Nat} (hi : mask.getLsbD i = true) :
    w.getLsbD i = v.getLsbD i := by
  have hand := congrArg (·.getLsbD i) h
  simpa only [BitVec.getLsbD_and, hi, Bool.and_true] using hand

/-- Settles O9: the bits that a C word executes by are all under the mask `0x9FFF`. -/
theorem unusedBitsDoNotMatter : Obligations.UnusedBitsDoNotMatter := by
  intro w v s hw hv h
  have hbit (i : Nat) (hi : (0x9FFF#16).getLsbD i = true) : w.getLsbD i = v.getLsbD i := getLsbD_eq_of_and_eq h hi
  rw [exec_decode_of_cWord hw, exec_decode_of_cWord hv, hbit 12 rfl, hbit 11 rfl, hbit 10 rfl, hbit 9 rfl,
    hbit 8 rfl, hbit 7 rfl, hbit 6 rfl, hbit 5 rfl, hbit 4 rfl, hbit 3 rfl, hbit 2 rfl, hbit 1 rfl, hbit 0 rfl]

/-- Settles O11: an A word by `decode_of_aWord`, a C word by `exec_decode_of_cWord`, and no word outside the ROM. -/
theorem stepReadsTheFieldsOfTheWord : Obligations.StepReadsTheFieldsOfTheWord := by
  refine ⟨fun s w hw => ⟨fun h => ?_, fun h => ?_⟩, fun s => step_of_stuck⟩
  · rw [step_of_fetch hw, decode_of_aWord h]
  · rw [step_of_fetch hw, exec_decode_of_cWord h]
    rfl

/-- Settles O12: a step exists unless the state is stuck, and a stuck state stays as it is. -/
theorem stepExistsExactlyInsideTheRom : Obligations.StepExistsExactlyInsideTheRom := fun s =>
  ⟨fun h => (stuck_or_step_next s).resolve_left (Nat.not_le_of_lt h),
    fun h => ⟨step_of_stuck h, stepN_of_stuck h⟩⟩

end Sys2Proof.Machine

/-! ## Proofs: the ALU's function table (42_alu_comp.md R128) -/

namespace Sys2Proof.Machine

/-! ### Two control bits at once

What the rows without a mnemonic come to; `~~~0#16` is the input that is zeroed and then complemented. -/

theorem add_not (x y : Word) : x + ~~~y = x - y - 1#16 := by
  rw [not_eq_neg_sub_one]; ring

theorem not_add (x y : Word) : ~~~x + y = y - x - 1#16 := by
  rw [BitVec.add_comm, add_not]

theorem not_add_not_both (x y : Word) : ~~~x + ~~~y = -(x + y) - 2#16 := by
  rw [not_eq_neg_sub_one, not_eq_neg_sub_one, show (2#16 : Word) = 1#16 + 1#16 from rfl]; ring

theorem not_not_add_not (x y : Word) : ~~~(~~~x + ~~~y) = x + y + 1#16 := by
  simp only [not_eq_neg_sub_one]; ring

theorem not_sub_one (x : Word) : ~~~x - 1#16 = -x - 2#16 := by
  rw [not_eq_neg_sub_one, show (2#16 : Word) = 1#16 + 1#16 from rfl]; ring

theorem not_and_not (x y : Word) : ~~~(x &&& ~~~y) = ~~~x ||| y := by
  rw [BitVec.not_and, BitVec.not_not]

theorem not_not_and (x y : Word) : ~~~(~~~x &&& y) = x ||| ~~~y := by
  rw [BitVec.not_and, BitVec.not_not]

theorem not_and_zero (x : Word) : ~~~(x &&& 0#16) = 0xFFFF#16 := by
  rw [BitVec.and_zero]; rfl

theorem not_zero_and_right (y : Word) : ~~~(0#16 &&& y) = 0xFFFF#16 := by
  rw [BitVec.zero_and]; rfl

theorem not_not_and_not_zero (x : Word) : ~~~(~~~x &&& ~~~0#16) = x := by
  rw [and_not_zero, BitVec.not_not]

theorem not_not_zero_and_not (y : Word) : ~~~(~~~0#16 &&& ~~~y) = y := by
  rw [not_zero_and, BitVec.not_not]

theorem not_add_zero (x : Word) : ~~~(x + 0#16) = ~~~x := by
  rw [BitVec.add_zero]

theorem not_zero_add (y : Word) : ~~~(0#16 + y) = ~~~y := by
  rw [BitVec.zero_add]

theorem not_not_add_zero (x : Word) : ~~~(~~~x + 0#16) = x := by
  rw [not_add_zero, BitVec.not_not]

theorem not_zero_add_not (y : Word) : ~~~(0#16 + ~~~y) = y := by
  rw [not_zero_add, BitVec.not_not]

theorem not_zero_add_right (y : Word) : ~~~0#16 + y = y - 1#16 := by
  rw [BitVec.add_comm, add_not_zero]

theorem not_zero_add_not_zero : ~~~0#16 + ~~~0#16 = 0xFFFE#16 := by decide

/-- Settles O17. Each group of four codes has one pair of conditioned inputs, and its rows are their `&`, the complement of
that, their sum, and the complement of that. The 18 documented codes are `CompRow.alu_comp`; the
others are the identities above. -/
theorem aluTableOfAllControlCodes : Obligations.AluTableOfAllControlCodes := by
  refine ⟨fun x y => ⟨
    -- `x` as it is; `y` as it is, complemented, zeroed, all ones
    CompRow.dAndA.alu_comp x y, rfl, CompRow.dPlusA.alu_comp x y, rfl,
    rfl, not_and_not x y, add_not x y, CompRow.aMinusD.alu_comp x y,
    BitVec.and_zero, not_and_zero x, BitVec.add_zero x, not_add_zero x,
    CompRow.d.alu_comp x y, CompRow.notD.alu_comp x y, CompRow.dMinus1.alu_comp x y, CompRow.negD.alu_comp x y,
    -- `x` complemented
    rfl, not_not_and x y, not_add x y, CompRow.dMinusA.alu_comp x y,
    rfl, CompRow.dOrA.alu_comp x y, not_add_not_both x y, not_not_add_not x y,
    BitVec.and_zero, not_and_zero (~~~x), BitVec.add_zero (~~~x), not_not_add_zero x,
    and_not_zero (~~~x), not_not_and_not_zero x, add_not_zero (~~~x), CompRow.dPlus1.alu_comp x y,
    -- `x` zeroed
    BitVec.zero_and, not_zero_and_right y, BitVec.zero_add y, not_zero_add y,
    BitVec.zero_and, not_zero_and_right (~~~y), BitVec.zero_add (~~~y), not_zero_add_not y,
    BitVec.and_zero, not_and_zero 0#16, CompRow.zero.alu_comp x y, not_add_zero 0#16,
    BitVec.zero_and, not_zero_and_right (~~~0#16), BitVec.zero_add (~~~0#16), not_zero_add_not 0#16,
    -- `x` all ones
    CompRow.a.alu_comp x y, CompRow.notA.alu_comp x y, CompRow.aMinus1.alu_comp x y, CompRow.negA.alu_comp x y,
    not_zero_and (~~~y), not_not_zero_and_not y, not_zero_add_right (~~~y), CompRow.aPlus1.alu_comp x y,
    BitVec.and_zero, not_and_zero (~~~0#16), CompRow.negOne.alu_comp x y, not_not_add_zero 0#16,
    and_not_zero (~~~0#16), not_not_and_not_zero 0#16, not_zero_add_not_zero, CompRow.one.alu_comp x y,
    -- the second spellings
    not_eq_neg_sub_one (x + y), BitVec.not_or.symm, (add_not_zero (~~~x)).trans (not_sub_one x),
    (not_zero_add_right (~~~y)).trans (not_sub_one y)⟩, by decide, by decide⟩

end Sys2Proof.Machine

/-! ## Proofs: what an instruction, a step and the host keep (10_state.md R10, R15 to R17; 41_c_instruction.md) -/

namespace Sys2Proof.Machine

open Sys2Proof.Safety

/-! ### One instruction -/

/-- Settles O33: `Memory.read_write` for the cell, and a store changes no other field. -/
theorem readReturnsTheLastWrite : Obligations.ReadReturnsTheLastWrite := by
  intro s a b v
  refine ⟨?_, rfl, rfl, rfl, rfl, rfl⟩
  rw [State.memRead, State.memWrite_ram, Memory.read_write, State.memRead]

/-- What `step_cases` says of a step, of one instruction: it loads A, is skipped, or is an executed C-instruction. -/
theorem exec_cases {i : Instr} {s t : State} (h : exec i s = .next t) :
    (∃ v : BitVec 15, t = (s.setA (v.zeroExtend 16)).nextPc) ∨ t = s.nextPc ∨ ∃ c d j, t = s.afterC c d j := by
  obtain ⟨v, rfl⟩ | ⟨f, hf, -⟩ := i.kind
  · exact .inl ⟨v, (Host.Outcome.next.inj ((exec_atValue v s).symm.trans h)).symm⟩
  · rw [exec_of_cFields? hf] at h
    obtain ⟨-, he⟩ | ⟨-, he⟩ := execC_cases f.comp f.dest f.jump s
    · exact .inr (.inl (Host.Outcome.next.inj (h.symm.trans he)))
    · exact .inr (.inr ⟨_, _, _, Host.Outcome.next.inj (h.symm.trans he)⟩)

/-- The one store of a C-instruction is to a cell of the RAM. -/
theorem afterC_ram_wf {s : State} (h : s.ram.wf = true) (c : Comp) (d : Dest) (j : Jump) :
    (s.afterC c d j).ram.wf = true := by
  rw [State.afterC_ram]
  split
  · exact Memory.wf_write _ _ _ h (effAddr_lt _)
  · exact h

section Exec

variable {i : Instr} {s t : State} (h : exec i s = .next t)
include h

theorem exec_ram_wf (hs : s.ram.wf = true) : t.ram.wf = true := by
  obtain ⟨v, rfl⟩ | rfl | ⟨c, d, j, rfl⟩ := exec_cases h
  · exact hs
  · exact hs
  · exact afterC_ram_wf hs c d j

theorem exec_rom : t.rom = s.rom := by
  obtain ⟨v, rfl⟩ | rfl | ⟨c, d, j, rfl⟩ := exec_cases h <;> simp

theorem exec_cfg : t.cfg = s.cfg := by
  obtain ⟨v, rfl⟩ | rfl | ⟨c, d, j, rfl⟩ := exec_cases h <;> simp

end Exec

/-- Settles O13: `exec_completes`, and what an instruction leaves unchanged. -/
theorem everyInstructionCompletes : Obligations.EveryInstructionCompletes := by
  intro i s
  obtain ⟨t, ht⟩ := exec_completes i s
  exact ⟨t, ht, exec_ram_wf ht, exec_rom ht, exec_cfg ht⟩

/-! ### One step -/

theorem exec_of_step {s t : State} (h : step s = .next t) :
    ∃ w, s.fetch = some w ∧ exec (decode w) s = .next t := by
  obtain ⟨⟨w, hw⟩, -⟩ := step_cases h
  exact ⟨w, hw, (step_of_fetch hw).symm.trans h⟩

theorem step_inv {s t : State} (hs : Inv s) (h : step s = .next t) : Inv t := by
  obtain ⟨w, -, he⟩ := exec_of_step h
  exact ⟨exec_ram_wf he hs.1, (exec_rom he).symm ▸ hs.2⟩

/-- Settles O37: the instruction that a step executes keeps the canonical form and the ROM. -/
theorem everyStepKeepsTheInvariant : Obligations.EveryStepKeepsTheInvariant := fun _ _ hs h => step_inv hs h

/-! ### The host's operations (47_host_operations.md R160) -/

theorem launch_inv (cfg : Config) {rom : List Word} (h : rom.length ≤ romMax) : Inv (State.launch cfg rom) :=
  ⟨rfl, h⟩

theorem loadRom_inv {cfg : Config} {text : List Char} {s : State} (h : loadRom cfg text = .ok s) : Inv s := by
  obtain ⟨ws, -, hws, rfl⟩ := loadRom_cases h
  exact launch_inv cfg hws

theorem reset_inv : Inv State.reset := launch_inv _ (Nat.zero_le _)

/-- Settles O38: both are launch states of a ROM that fits. -/
theorem invariantHoldsAtReset : Obligations.InvariantHoldsAtReset :=
  ⟨reset_inv, fun _ _ _ h => loadRom_inv h⟩

/-- Settles O2: the empty text has no line, and the ROM it gives no word to fetch. -/
theorem resetIsLoadRomOfTheEmptyText : Obligations.ResetIsLoadRomOfTheEmptyText :=
  ⟨loadRom_of_parseRom _ rfl, reset_inv, step_of_stuck (Nat.zero_le _)⟩

theorem stepN_inv {s : State} (hs : Inv s) (n : Nat) : Inv (stepN n s) := by
  induction n generalizing s with
  | zero => exact hs
  | succ n ih =>
    obtain h | ⟨t, ht⟩ := stuck_or_step_next s
    · rwa [stepN_of_stuck h]
    · rw [stepN_succ_of_next ht]
      exact ih (step_inv hs ht)

theorem setKeyboard_inv {s : State} (hs : Inv s) (code : Int) : Inv (setKeyboard code s) :=
  ⟨Memory.wf_write _ _ _ hs.1 (by decide), hs.2⟩

/-- A load launches the machine with a text's words, or is rejected and changes nothing (R162). -/
theorem act_loadRom_cases (m : HostMachine) (text : List Char) :
    (∃ s, loadRom m.config text = .ok s ∧ m.act (.loadRom text) = .running s) ∨
    (∃ e, loadRom m.config text = .error e) ∧ m.act (.loadRom text) = m := by
  rw [HostMachine.act]
  split
  · next s hs => exact .inl ⟨s, hs, rfl⟩
  · next e he => exact .inr ⟨⟨e, he⟩, rfl⟩

theorem act_inv {m : HostMachine} (hm : HostInv m) (op : HostAction) : HostInv (m.act op) := by
  cases op with
  | loadRom text =>
    obtain ⟨s, hs, hact⟩ | ⟨-, hact⟩ := act_loadRom_cases m text
    · rw [hact]; exact loadRom_inv hs
    · rwa [hact]
  | step n =>
    cases m with
    | unlaunched cfg => trivial
    | running s => exact stepN_inv hm n
  | setKeyboard code =>
    cases m with
    | unlaunched cfg => trivial
    | running s => exact setKeyboard_inv hm code

theorem session_inv {m : HostMachine} (hm : HostInv m) (ops : List HostAction) : HostInv (m.session ops) := by
  induction ops generalizing m with
  | nil => exact hm
  | cons op ops ih => exact ih (act_inv hm op)

/-- Only a load launches a machine. -/
theorem act_unlaunched (cfg : Config) {op : HostAction} (hop : ∀ text, op ≠ .loadRom text) :
    (HostMachine.unlaunched cfg).act op = .unlaunched cfg := by
  cases op with
  | loadRom text => exact absurd rfl (hop text)
  | step n => rfl
  | setKeyboard code => rfl

theorem session_unlaunched (cfg : Config) {ops : List HostAction} (hops : ∀ text, HostAction.loadRom text ∉ ops) :
    (HostMachine.unlaunched cfg).session ops = .unlaunched cfg := by
  induction ops with
  | nil => rfl
  | cons op ops ih =>
    have hop : ∀ text, op ≠ .loadRom text := fun text h => hops text (h ▸ List.mem_cons_self)
    have hrest := ih fun text h => hops text (List.mem_cons_of_mem op h)
    rw [HostMachine.session, List.foldl_cons, act_unlaunched cfg hop]
    exact hrest

/-- Settles O39: operation by operation, then by induction on the session. -/
theorem everyHostSessionKeepsTheInvariant : Obligations.EveryHostSessionKeepsTheInvariant :=
  ⟨fun _ op hm => act_inv hm op,
    fun cfg ops => ⟨trivial, session_inv (m := .new cfg) trivial ops, session_unlaunched cfg⟩⟩

/-! ### The program counter (10_state.md R15, R17) -/

/-- Below the end of a ROM that fits, the next index is a number and not a wrap. -/
theorem toNat_add_one_of_fetch {s : State} {w : Word} (hs : Inv s) (hw : s.fetch = some w) :
    (s.pc + 1#16).toNat = s.pc.toNat + 1 ∧ (s.pc + 1#16).toNat ≤ s.rom.length := by
  obtain ⟨hpc, -⟩ := List.getElem?_eq_some_iff.mp hw
  have hrom : s.rom.length ≤ 32768 := hs.2
  have hnext : (s.pc + 1#16).toNat = s.pc.toNat + 1 := by
    bv_omega
  omega

/-- The jump conditions of a word are its bits 2..0, so a word that jumps has one of them. -/
theorem and_seven_ne_zero_of_taken {w out : Word} (h : Taken (CFields.ofWord w).jump out) : w &&& 0x0007#16 ≠ 0#16 := by
  intro hzero
  have hbit (i : Nat) (hi : (0x0007#16).getLsbD i = true) : w.getLsbD i = false :=
    (getLsbD_eq_of_and_eq (hzero.trans (BitVec.zero_and (x := 7#16)).symm) hi).trans (BitVec.getLsbD_zero)
  have hjump : (CFields.ofWord w).jump = .none := by
    simpa [CFields.ofWord, Jump.ofCode, Jump.none] using And.intro (hbit 2 rfl) ⟨hbit 1 rfl, hbit 0 rfl⟩
  exact (Jump.taken_iff_condition .none out).mp (hjump ▸ h)

/-- Settles O36: only a taken jump of a C word gives PC anything but the next index, and its target is A. -/
theorem pcIncrementNeverWraps : Obligations.PcIncrementNeverWraps := by
  intro s t hs h
  obtain ⟨⟨w, hw⟩, -⟩ := step_cases h
  have hnext := toNat_add_one_of_fetch hs hw
  cases h15 : w.getLsbD 15 with
  | false =>
    cases (step_of_aWord hw h15).symm.trans h
    exact .inl hnext
  | true =>
    rw [step_of_cWord hw h15] at h
    obtain ⟨-, he⟩ | ⟨-, he⟩ := execC_cases (CFields.ofWord w).comp (CFields.ofWord w).dest (CFields.ofWord w).jump s
    · cases he.symm.trans h
      exact .inl hnext
    · cases he.symm.trans h
      have hpc := afterC_continues s (CFields.ofWord w).comp (CFields.ofWord w).dest (CFields.ofWord w).jump
      by_cases htaken : Taken (CFields.ofWord w).jump (aluOut (CFields.ofWord w).comp s)
      · refine .inr ⟨w, hw, h15, and_seven_ne_zero_of_taken htaken, ?_⟩
        cases hp : s.cfg.jumpASample with
        | post => exact .inl (hpc.post htaken hp)
        | pre => exact .inr (hpc.pre htaken hp)
      · rw [hpc.next htaken]
        exact .inl hnext

/-! ### Without the `a` bit (41_c_instruction.md R77) -/

/-- An executed C-instruction without the `a` bit in another RAM: every field but the RAM comes out alike, and the same word
is stored in the same cell. -/
theorem afterC_withRam {c : Comp} (hc : c.y = .regA) (s : State) (m : Memory) (d : Dest) (j : Jump) :
    ({ s with ram := m } : State).afterC c d j =
      { s.afterC c d j with ram := if d.toM then m.write (effAddr s.regA) (aluOut c s) else m } := by
  have hy : ({ s with ram := m } : State).yOperand c.y = s.yOperand c.y := by rw [hc]; rfl
  exact (afterC_withMemories m s.rom hy d j).trans (by simp only [State.afterC_rom])

/-- The cell of a store that is done or not. -/
theorem Memory.read_ite_write (m : Memory) (b : Bool) (i k : Nat) (w : Word) :
    (if b then m.write i w else m).read k = if b ∧ k = i then w else m.read k := by
  cases b <;> simp [Memory.read_write]

/-- Settles O35: without the `a` bit both runs are executed alike, with the same store. -/
theorem noRamReadWithoutTheABit : Obligations.NoRamReadWithoutTheABit := by
  intro i s m hi
  obtain ⟨v, rfl⟩ | ⟨f, hf, -⟩ := i.kind
  · exact ⟨_, _, exec_atValue v s, exec_atValue v _, rfl, rfl, rfl, fun _ _ => ⟨rfl, rfl⟩, fun _ hk => absurd rfl hk⟩
  · by_cases hx : Executed f.comp s
    · refine ⟨_, _, (exec_of_cFields? hf s).trans (execC_of_executed hx _ _),
        (exec_of_cFields? hf _).trans (execC_of_executed (s := { s with ram := m }) hx _ _), ?_⟩
      rw [afterC_withRam (hi f hf)]
      refine ⟨rfl, rfl, rfl, fun k hk => ?_, fun k => ?_⟩
      · simp [Memory.read_ite_write, hk]
      · simp only [State.afterC_ram, Memory.read_ite_write]
        split <;> simp
    · exact ⟨_, _, exec_of_not_executed hf hx, exec_of_not_executed (s := { s with ram := m }) hf hx, rfl, rfl, rfl,
        fun _ _ => ⟨rfl, rfl⟩, fun _ hk => absurd rfl hk⟩

end Sys2Proof.Machine

/-! ## Proofs: early returns and ended runs (47_host_operations.md R166; 70_reset_and_hazards.md R207) -/

namespace Sys2Proof.Machine

open Sys2Proof.Safety

/-- From a halt loop state on, a run stays in that loop: what it has done after `k` steps it keeps for all that follow. -/
theorem loopsTo_of_haltLoop {s : State} {k n : Nat} (hk : k ≤ n) (h : (stepN k s).haltLoop = true) :
    ∃ l, HaltLoopIndex (stepN k s) l ∧ LoopsTo l (n - k) (stepN k s) (stepN n s) := by
  obtain ⟨l, hl⟩ := (State.haltLoop_iff _).mp h
  have hrun := stepN_of_haltLoopIndex hl (n - k)
  rw [stepN_stepN, Nat.add_sub_cancel' hk] at hrun
  exact ⟨l, hl, hrun⟩

/-- Settles O45: an early return is in a halt loop, which the remaining steps do not leave. -/
theorem earlyStopIsInvisibleInRamAndD : Obligations.EarlyStopIsInvisibleInRamAndD := by
  refine fun n s t => ⟨.inl rfl, ?_, ?_⟩
  · rintro hoff (h | ⟨hon, -⟩)
    · exact h
    · cases hoff.symm.trans hon
  · rintro (rfl | ⟨-, k, hk, rfl, hloop⟩)
    · exact ⟨rfl, rfl, rfl, fun h => absurd rfl h⟩
    · obtain ⟨l, hl, hrun⟩ := loopsTo_of_haltLoop hk hloop
      exact ⟨hrun.ram.symm, hrun.regD.symm, hrun.rom.symm, fun _ => ⟨l, hl, hrun.haltLoopIndex hl⟩⟩

theorem endsAfter_le {s : State} {n k : Nat} (hn : EndsAfter n s) (hk : (stepN k s).haltLoop = true) : n ≤ k := by
  by_contra hlt
  exact absurd hk (by rw [hn.2 k (Nat.lt_of_not_le hlt)]; decide)

theorem not_haltLoop_of_stuck {s : State} (h : Stuck s) : s.haltLoop ≠ true := by
  intro hloop
  obtain ⟨l, hl⟩ := (State.haltLoop_iff s).mp hloop
  obtain ⟨t, ht, -⟩ := step_of_haltLoopIndex hl
  cases (step_of_stuck h).symm.trans ht

/-- Settles O46: the loop keeps RAM and D, two ends are each the first, and a stuck state has no step that a halt loop
takes. -/
theorem finishedRunsKeepTheirResult : Obligations.FinishedRunsKeepTheirResult := by
  refine ⟨fun s n k h hk => ?_, fun s n k hn hk => le_antisymm (endsAfter_le hn hk.1) (endsAfter_le hk hn.1),
    fun s n hs h => ?_⟩
  · obtain ⟨l, -, hrun⟩ := loopsTo_of_haltLoop hk h.1
    exact ⟨hrun.ram, hrun.regD⟩
  · have hloop := h.1
    rw [stepN_of_stuck hs] at hloop
    exact not_haltLoop_of_stuck hs hloop

end Sys2Proof.Machine

/-! ## Proofs: the screen (20_memory.md R36; 47_host_operations.md R169) -/

namespace Sys2Proof.Machine

theorem State.screenImage_getElem? (s : State) {x y : Nat} (hx : x < 512) (hy : y < 256) :
    (s.screenImage[y]?.bind fun row => row[x]?) = some (s.pixel x y) := by
  simp [State.screenImage, hx, hy]

/-- The pixel by its place `k` in the order of the rows. -/
theorem State.pixel_mod_div (s : State) (k : Nat) :
    s.pixel (k % 512) (k / 512) =
      if (s.ram.read (screenBase + k / 16)).getLsbD (k % 16) then .green else .black := by
  have hk : k / 512 * 512 + k % 512 = k := Nat.div_add_mod' k 512
  rw [State.pixel]
  simp only [hk]

/-- Settles O43: with `k = w*16 + b`, word `w` is `k / 16` and bit `b` is `k % 16`. -/
theorem screenBitsArePixels : Obligations.ScreenBitsArePixels := by
  intro s w b hw hb
  have hword : (w * 16 + b) / 16 = w := by omega
  have hbit : (w * 16 + b) % 16 = b := by omega
  have hrow : (w * 16 + b) / 512 = w / 32 := by omega
  have hcol : (w * 16 + b) % 512 = w % 32 * 16 + b := by omega
  refine ⟨?_, hrow, hcol, ?_⟩
  · rw [State.pixel_mod_div, hword, hbit, screenBase]
  · rw [hrow, hcol]
    exact s.screenImage_getElem? (by omega) (by omega)

end Sys2Proof.Machine

/-! ## Proofs: `load_rom` (47_host_operations.md R161, R162) -/

namespace Sys2Proof.Machine

open Sys2Proof.Safety

/-! ### One line -/

/-- The lowest `n` bits of a word, written with the highest first; `romLine` writes all 16 (`romLine_eq_bitChars`). -/
def bitChars (w : Word) (n : Nat) : List Char :=
  (List.range n).map fun i => if w.getLsbD (n - 1 - i) then '1' else '0'

theorem romLine_eq_bitChars (w : Word) : romLine w = bitChars w 16 := rfl

theorem bitChars_succ (w : Word) (n : Nat) :
    bitChars w (n + 1) = (if w.getLsbD n then '1' else '0') :: bitChars w n := by
  rw [bitChars, List.range_succ_eq_map, List.map_cons, List.map_map, bitChars]
  simp [Function.comp_def, Nat.sub_sub, Nat.add_comm]

/-- Reading bits back puts them below the number read before. -/
theorem parseBits_bitChars (w : Word) (n acc : Nat) :
    parseBits acc (bitChars w n) = some (acc * 2 ^ n + w.toNat % 2 ^ n) := by
  induction n generalizing acc with
  | zero => simp [bitChars, parseBits, Nat.mod_one]
  | succ n ih =>
    have hmod : w.toNat % 2 ^ (n + 1) = 2 ^ n * (w.getLsbD n).toNat + w.toNat % 2 ^ n := by
      rw [BitVec.getLsbD, Nat.toNat_testBit, Nat.mod_pow_succ, Nat.add_comm]
    have hstep : parseBits acc (bitChars w (n + 1)) = parseBits (2 * acc + (w.getLsbD n).toNat) (bitChars w n) := by
      rw [bitChars_succ]
      cases w.getLsbD n <;> rfl
    rw [hstep, ih, hmod]
    congr 1
    ring

theorem parseRomLine_romLine (w : Word) : parseRomLine (romLine w) = some w := by
  rw [parseRomLine, if_pos (romLine_length w), romLine_eq_bitChars, parseBits_bitChars, Nat.zero_mul, Nat.zero_add,
    Nat.mod_eq_of_lt w.isLt, Option.map_some, BitVec.ofNat_toNat, BitVec.setWidth_eq]

theorem parseBits_isSome_iff (acc : Nat) (l : List Char) :
    (parseBits acc l).isSome = true ↔ ∀ c ∈ l, c = '0' ∨ c = '1' := by
  induction l generalizing acc with
  | nil => simp [parseBits]
  | cons c l ih =>
    rw [parseBits, List.forall_mem_cons]
    split
    · next h0 => simp [ih, h0]
    · next h0 =>
      split
      · next h1 => simp [ih, h1]
      · next h1 => simp [h0, h1]

theorem parseRomLine_isSome_iff (l : List Char) :
    (parseRomLine l).isSome = true ↔ l.length = 16 ∧ ∀ c ∈ l, c = '0' ∨ c = '1' := by
  rw [parseRomLine]
  split
  · next hl => rw [Option.isSome_map, parseBits_isSome_iff, and_iff_right hl]
  · next hl => simp [hl]

/-! ### All lines -/

theorem parseRomLines_cons_of_some {l : List Char} {w : Word} (h : parseRomLine l = some w) (n : Nat)
    (ls : List (List Char)) : parseRomLines n (l :: ls) = (parseRomLines (n + 1) ls).map (w :: ·) := by
  rw [parseRomLines, h]
  cases parseRomLines (n + 1) ls <;> rfl

theorem parseRomLines_romLine (n : Nat) (ws : List Word) : parseRomLines n (ws.map romLine) = .ok ws := by
  induction ws generalizing n with
  | nil => rfl
  | cons w ws ih => rw [List.map_cons, parseRomLines_cons_of_some (parseRomLine_romLine w), ih]; rfl

/-- Well-formed lines give a word each. -/
theorem parseRomLines_of_forall {ls : List (List Char)} (h : ∀ l ∈ ls, parseRomLine l ≠ none) (n : Nat) :
    ∃ ws, parseRomLines n ls = .ok ws ∧ ws.length = ls.length := by
  induction ls generalizing n with
  | nil => exact ⟨[], rfl, rfl⟩
  | cons l ls ih =>
    obtain ⟨hl, hls⟩ := List.forall_mem_cons.mp h
    obtain ⟨w, hw⟩ := Option.ne_none_iff_exists'.mp hl
    obtain ⟨ws, hws, hlen⟩ := ih hls (n + 1)
    exact ⟨w :: ws, by rw [parseRomLines_cons_of_some hw, hws]; rfl, by simp [hlen]⟩

/-- The first malformed line is the one reported. -/
theorem parseRomLines_of_malformed {ls : List (List Char)} {l : List Char} {n : Nat} (hl : ls[n]? = some l)
    (hbad : parseRomLine l = none) (hgood : ∀ k x, k < n → ls[k]? = some x → parseRomLine x ≠ none) (m : Nat) :
    parseRomLines m ls = .error (.malformedRomLine (m + n)) := by
  induction ls generalizing n m with
  | nil => cases hl
  | cons x ls ih =>
    cases n with
    | zero =>
      cases hl
      rw [parseRomLines, hbad]
      rfl
    | succ n =>
      obtain ⟨w, hw⟩ := Option.ne_none_iff_exists'.mp (hgood 0 x (Nat.succ_pos n) rfl)
      rw [parseRomLines_cons_of_some hw,
        ih (n := n) hl (fun k y hk hy => hgood (k + 1) y (Nat.succ_lt_succ hk) hy) (m + 1), Nat.succ_add_eq_add_succ]
      rfl

/-! ### The text -/

/-- A text whose lines parse is accepted if its words fit. -/
theorem parseRom_of_parseRomLines {text : List Char} {ws : List Word} (h : parseRomLines 0 (romLines text) = .ok ws) :
    parseRom text = if ws.length ≤ romMax then .ok ws else .error .romOverflow := by
  rw [parseRom, h]

theorem splitLines_ne_nil (t : List Char) : splitLines t ≠ [] := by
  cases t with
  | nil => decide
  | cons c t =>
    rw [splitLines]
    split
    · exact List.cons_ne_nil _ _
    · split <;> exact List.cons_ne_nil _ _

/-- A newline at the end of a text begins one more, empty piece. -/
theorem splitLines_append_newline (t : List Char) : splitLines (t ++ ['\n']) = splitLines t ++ [[]] := by
  induction t with
  | nil => rfl
  | cons c t ih =>
    rw [List.cons_append, splitLines, splitLines, ih]
    split
    · rfl
    · obtain ⟨l, ls, hsplit⟩ := List.exists_cons_of_ne_nil (splitLines_ne_nil t)
      rw [hsplit]
      rfl

theorem romText_eq_append_newline (w : Word) (ws : List Word) : ∃ t, romText (w :: ws) = t ++ ['\n'] := by
  induction ws generalizing w with
  | nil => exact ⟨romLine w, rfl⟩
  | cons v ws ih =>
    obtain ⟨t, ht⟩ := ih v
    exact ⟨romLine w ++ '\n' :: t, by rw [romText, ht]; simp⟩

/-- Without its final newline the text has the same lines: the last of them is not empty. -/
theorem romLines_romText_dropLast (ws : List Word) : romLines (romText ws).dropLast = ws.map romLine := by
  cases ws with
  | nil => rfl
  | cons w ws =>
    obtain ⟨t, ht⟩ := romText_eq_append_newline w ws
    have hsplit : splitLines t = (w :: ws).map romLine :=
      List.append_cancel_right ((splitLines_append_newline t).symm.trans (ht ▸ splitLines_romText (w :: ws)))
    have hlen : ∀ l ∈ splitLines t, l.length = 16 := by
      rw [hsplit, List.forall_mem_map]
      exact fun v _ => romLine_length v
    have hlast : (splitLines t).getLast? ≠ some [] := fun h => absurd (hlen [] (List.mem_of_getLast? h)) (by decide)
    have hne : t ≠ [] := by
      rintro rfl
      exact hlast rfl
    rw [ht, List.dropLast_concat, romLines, if_neg hne, if_neg hlast, hsplit]

/-- Settles O3: with and without the final newline the lines are those of the words, and each is read back. -/
theorem loadRomReadsOneWordALine : Obligations.LoadRomReadsOneWordALine := by
  intro ws hws
  constructor
  · rw [parseRom_of_parseRomLines (ws := ws) (by rw [romLines_romText, parseRomLines_romLine]), if_pos hws]
  · rw [parseRom_of_parseRomLines (ws := ws) (by rw [romLines_romText_dropLast, parseRomLines_romLine]), if_pos hws]

/-- Settles O4: the lines by `parseRomLines_of_malformed` and `parseRomLines_of_forall`, the machine by
`act_loadRom_cases`. -/
theorem loadRomRejectsWhatTheRulesReject : Obligations.LoadRomRejectsWhatTheRulesReject := by
  refine ⟨parseRomLine_isSome_iff, fun text l n hl hbad hgood => ?_, fun text h => ?_, fun m text e he => ?_⟩
  · rw [parseRom, parseRomLines_of_malformed hl hbad hgood, Nat.zero_add]
  · obtain ⟨ws, hws, hlen⟩ := parseRomLines_of_forall h 0
    rw [parseRom_of_parseRomLines hws, hlen]
    exact ⟨fun hmax => if_neg (Nat.not_le_of_lt hmax), fun hmax => ⟨ws, if_pos hmax, hlen⟩⟩
  · obtain ⟨s, hs, -⟩ | ⟨-, hact⟩ := act_loadRom_cases m text
    · cases he.symm.trans hs
    · exact hact

end Sys2Proof.Machine

/-! ## Proofs: the assembler's words and errors (30_encoding.md R61, R62, R67) -/

namespace Sys2Proof.Machine

open Sys2Proof.Safety

/-! ### One word a line -/

/-- What the word of a line with a word is: the number, the C word, or some A word for a symbol. -/
def IsWordOf : AsmLine → Word → Prop
  | .label _, _ => False
  | .literal n, w => w = BitVec.ofNat 16 n
  | .symbol _, w => w.getLsbD 15 = false
  | .instr v, w => w = v

theorem ofNat_bit15 {v : Nat} (h : v ≤ 32767) : (BitVec.ofNat 16 v).getLsbD 15 = false := by
  rw [BitVec.getLsbD_ofNat, Nat.testBit_lt_two_pow (by omega), Bool.and_false]

/-- `asmWord_spec` by whether the line has a word. -/
theorem asmWord_isWordOf {free n : Nat} {tab : SymbolTable} {x : AsmLine} {r : Option Word × Nat × SymbolTable}
    (h : asmWord free tab n x = .ok r) :
    (r.1 = none ∧ hasWord x = false) ∨ ∃ w, r.1 = some w ∧ hasWord x = true ∧ IsWordOf x w := by
  obtain hnone | ⟨w, hw, hx, hspec⟩ := asmWord_spec h
  · exact .inl hnone
  · refine .inr ⟨w, hw, hx, ?_⟩
    cases x with
    | label name => exact hspec
    | literal v => exact hspec
    | instr v => exact hspec
    | symbol name =>
      obtain ⟨v, hv, rfl⟩ := hspec
      exact ofNat_bit15 hv

/-- The second pass answers a word for each line that has one, in order. -/
theorem emitWords_forall₂ {xs : List (Nat × AsmLine)} {i free : Nat} {tab : SymbolTable} {ws : List Word}
    (h : emitWords i free tab xs = .ok ws) : List.Forall₂ IsWordOf ((xs.map Prod.snd).filter hasWord) ws := by
  induction xs generalizing i free tab ws with
  | nil => cases h; exact .nil
  | cons p xs ih =>
    obtain ⟨n, x⟩ := p
    obtain ⟨⟨o, free', tab'⟩, hr, hcases⟩ := emitWords_cons_ok h
    rw [List.map_cons, List.filter_cons]
    obtain ⟨rfl, hx⟩ | ⟨w, rfl, hx, hword⟩ := asmWord_isWordOf hr
    · obtain ⟨-, hrest⟩ | ⟨_, _, ⟨⟩, -⟩ := hcases
      rw [if_neg (Bool.eq_false_iff.mp hx)]
      exact ih hrest
    · obtain ⟨⟨⟩, -⟩ | ⟨_, ws', ⟨⟩, -, rfl, hrest⟩ := hcases
      rw [if_pos hx]
      exact .cons hword (ih hrest)

/-- An accepted text has passed all three stages. -/
theorem assemble_ok {text : List Char} {ws : List Word} (h : assemble text = .ok ws) :
    ∃ xs tab, parseAsmLines 0 (splitLines text) = .ok xs ∧ bindLabels 0 predefined xs = .ok tab ∧
      emitWords 0 16 tab xs = .ok ws := by
  unfold assemble at h
  split at h
  · cases h
  · next xs hxs =>
    split at h
    · cases h
    · next tab htab => exact ⟨xs, tab, hxs, htab, h⟩

/-- Settles O48: the words correspond to the lines one by one, and the second pass stops at a full ROM. -/
theorem assemblyEmitsOneWordAnInstruction : Obligations.AssemblyEmitsOneWordAnInstruction := by
  intro text ws h
  obtain ⟨xs, tab, hxs, -, hemit⟩ := assemble_ok h
  have hwords := emitWords_forall₂ hemit
  have hmax := emitWords_length hemit (Nat.zero_le _)
  refine ⟨xs, hxs, hwords.length_eq.symm, by omega, fun k x w hx hw => ?_⟩
  obtain ⟨hk, rfl⟩ := List.getElem?_eq_some_iff.mp hx
  obtain ⟨hk', rfl⟩ := List.getElem?_eq_some_iff.mp hw
  have hword := hwords.get hk hk'
  simp only [List.get_eq_getElem] at hword
  revert hword
  cases ((xs.map Prod.snd).filter hasWord)[k] <;> exact id

/-! ### The first line that does not parse -/

theorem errorLine_of_parseAsmLine {n : Nat} {l : List Char} {e : AsmError} (h : parseAsmLine n l = .error e) :
    errorLine e = n := by
  revert h
  fun_cases parseAsmLine n l <;> intro h <;> cases h <;> rfl

theorem parseAsmLines_cons_blank {l : List Char} (h : stripLine l = []) (n : Nat) (ls : List (List Char)) :
    parseAsmLines n (l :: ls) = parseAsmLines (n + 1) ls := by
  rw [parseAsmLines, if_pos h]

theorem parseAsmLines_cons_ok {n : Nat} {l : List Char} {x : AsmLine} (hl : stripLine l ≠ [])
    (hx : parseAsmLine n (stripLine l) = .ok x) (ls : List (List Char)) :
    parseAsmLines n (l :: ls) = (parseAsmLines (n + 1) ls).map ((n, x) :: ·) := by
  rw [parseAsmLines, if_neg hl, hx]
  cases parseAsmLines (n + 1) ls <;> rfl

theorem parseAsmLines_cons_error {n : Nat} {l : List Char} {e : AsmError} (hl : stripLine l ≠ [])
    (he : parseAsmLine n (stripLine l) = .error e) (ls : List (List Char)) :
    parseAsmLines n (l :: ls) = .error e := by
  rw [parseAsmLines, if_neg hl, he]

/-- The error of the first line at fault is the error of all, the first line having number `m`. -/
theorem parseAsmLines_of_error {ls : List (List Char)} {l : List Char} {m n : Nat} {e : AsmError}
    (hgood : ∀ k x, k < n → ls[k]? = some x → stripLine x = [] ∨ ∃ y, parseAsmLine (m + k) (stripLine x) = .ok y)
    (hl : ls[n]? = some l) (hne : stripLine l ≠ []) (he : parseAsmLine (m + n) (stripLine l) = .error e) :
    parseAsmLines m ls = .error e := by
  induction ls generalizing m n with
  | nil => cases hl
  | cons x ls ih =>
    cases n with
    | zero =>
      cases hl
      exact parseAsmLines_cons_error hne he ls
    | succ n =>
      have hrest : parseAsmLines (m + 1) ls = .error e := by
        refine ih (fun k y hk hy => ?_) hl (Nat.succ_add_eq_add_succ m n ▸ he)
        rw [Nat.succ_add_eq_add_succ]
        exact hgood (k + 1) y (Nat.succ_lt_succ hk) hy
      by_cases hx : stripLine x = []
      · rw [parseAsmLines_cons_blank hx, hrest]
      · obtain ⟨y, hy⟩ := (hgood 0 x (Nat.succ_pos n) rfl).resolve_left hx
        rw [parseAsmLines_cons_ok (n := m) hx hy, hrest]
        rfl

/-! ### The first label that has a value already -/

/-- The first pass over lines that bind goes on behind them with the table they give. -/
theorem bindLabels_append {pre : List (Nat × AsmLine)} {i : Nat} {tab tab' : SymbolTable}
    (h : bindLabels i tab pre = .ok tab') (post : List (Nat × AsmLine)) :
    ∃ k, bindLabels i tab (pre ++ post) = bindLabels k tab' post := by
  induction pre generalizing i tab with
  | nil => cases h; exact ⟨i, rfl⟩
  | cons p pre ih =>
    obtain ⟨n, x⟩ := p
    cases x with
    | literal v => exact ih h
    | symbol name => exact ih h
    | instr w => exact ih h
    | label name =>
      rw [bindLabels] at h
      rw [List.cons_append, bindLabels]
      split at h
      · cases h
      · exact ih h

theorem bindLabels_cons_duplicate {tab : SymbolTable} {name : List Char} {v : Nat} (h : tab.value? name = some v)
    (i n : Nat) (post : List (Nat × AsmLine)) :
    bindLabels i tab ((n, .label name) :: post) = .error (.duplicateSymbol n) := by
  rw [bindLabels, h]

/-! ### The first word that does not fit -/

theorem emitWords_cons_none {free free' n : Nat} {tab tab' : SymbolTable} {x : AsmLine}
    (h : asmWord free tab n x = .ok (none, free', tab')) (i : Nat) (xs : List (Nat × AsmLine)) :
    emitWords i free tab ((n, x) :: xs) = emitWords i free' tab' xs := by
  rw [emitWords, h]

theorem emitWords_cons_some {free free' n i : Nat} {tab tab' : SymbolTable} {x : AsmLine} {w : Word}
    (h : asmWord free tab n x = .ok (some w, free', tab')) (hi : i < romMax) (xs : List (Nat × AsmLine)) :
    emitWords i free tab ((n, x) :: xs) = (emitWords (i + 1) free' tab' xs).map (w :: ·) := by
  rw [emitWords, h]
  simp only [if_pos hi]
  cases emitWords (i + 1) free' tab' xs <;> rfl

theorem emitWords_cons_overflow {free free' n i : Nat} {tab tab' : SymbolTable} {x : AsmLine} {w : Word}
    (h : asmWord free tab n x = .ok (some w, free', tab')) (hi : ¬ i < romMax) (xs : List (Nat × AsmLine)) :
    emitWords i free tab ((n, x) :: xs) = .error (.romOverflow n) := by
  rw [emitWords, h]
  exact if_neg hi

/-- Only a symbol can be at fault or change the table. -/
theorem asmWord_of_not_symbol {x : AsmLine} (hx : ∀ name, x ≠ .symbol name) (free : Nat) (tab : SymbolTable) (n : Nat) :
    (hasWord x = false ∧ asmWord free tab n x = .ok (none, free, tab)) ∨
    (hasWord x = true ∧ ∃ w, asmWord free tab n x = .ok (some w, free, tab)) := by
  cases x with
  | label name => exact .inl ⟨rfl, rfl⟩
  | literal v => exact .inr ⟨rfl, _, rfl⟩
  | instr w => exact .inr ⟨rfl, _, rfl⟩
  | symbol name => exact absurd rfl (hx name)

/-- Without symbols the second pass, `i` words having been emitted, stops at the line of the word after the `romMax`-th. -/
theorem emitWords_overflow {xs : List (Nat × AsmLine)} {i n : Nat} {x : AsmLine} (hi : i ≤ romMax)
    (hx : (xs.filter fun p => hasWord p.2)[romMax - i]? = some (n, x)) (hsym : ∀ p ∈ xs, ∀ name, p.2 ≠ .symbol name)
    (free : Nat) (tab : SymbolTable) : emitWords i free tab xs = .error (.romOverflow n) := by
  induction xs generalizing i with
  | nil => cases hx
  | cons p xs ih =>
    obtain ⟨m, y⟩ := p
    obtain ⟨hy, hsym'⟩ := List.forall_mem_cons.mp hsym
    rw [List.filter_cons] at hx
    obtain ⟨hword, hasm⟩ | ⟨hword, w, hasm⟩ := asmWord_of_not_symbol hy free tab m
    · rw [if_neg (Bool.eq_false_iff.mp hword)] at hx
      rw [emitWords_cons_none hasm]
      exact ih hi hx hsym'
    · rw [if_pos hword] at hx
      obtain hlt | rfl := Nat.lt_or_eq_of_le hi
      · have hidx : romMax - i = romMax - (i + 1) + 1 := by omega
        rw [hidx, List.getElem?_cons_succ] at hx
        rw [emitWords_cons_some hasm hlt, ih hlt hx hsym']
        rfl
      · rw [Nat.sub_self, List.getElem?_cons_zero] at hx
        cases hx
        exact emitWords_cons_overflow hasm (Nat.lt_irrefl _) xs

/-- A text with a word too many is not accepted (`assemblyEmitsOneWordAnInstruction` bounds their number). -/
theorem assemble_error_of_too_many {text : List Char} {xs : List (Nat × AsmLine)} {p : Nat × AsmLine}
    (hxs : parseAsmLines 0 (splitLines text) = .ok xs) (hp : (xs.filter fun p => hasWord p.2)[romMax]? = some p) :
    ∃ e, assemble text = .error e := by
  cases h : assemble text with
  | error e => exact ⟨e, rfl⟩
  | ok ws =>
    obtain ⟨xs', hxs', hlen, hmax, -⟩ := assemblyEmitsOneWordAnInstruction text ws h
    cases hxs.symm.trans hxs'
    obtain ⟨hlt, -⟩ := List.getElem?_eq_some_iff.mp hp
    rw [List.filter_map, List.length_map] at hlen
    exact absurd hlt (Nat.not_lt_of_le (hlen ▸ hmax))

/-- Settles O49: each clause is the pass that stops, the passes before it having gone through. -/
theorem assemblerErrorsNameTheirLine : Obligations.AssemblerErrorsNameTheirLine := by
  refine ⟨fun text l n e hgood hl hne he => ⟨?_, errorLine_of_parseAsmLine he⟩,
    fun text xs pre post n name tab v hxs hsplit htab hv => ?_,
    fun text xs n x hxs hx => ⟨assemble_error_of_too_many hxs hx, fun tab htab hsym => ?_⟩⟩
  · rw [assemble, parseAsmLines_of_error (m := 0) (n := n) (by simpa using hgood) hl hne (by simpa using he)]
  · obtain ⟨k, hk⟩ := bindLabels_append htab ((n, .label name) :: post)
    rw [← hsplit, bindLabels_cons_duplicate hv] at hk
    simp only [assemble, hxs, hk]
  · simp only [assemble, hxs, htab]
    exact emitWords_overflow (Nat.zero_le _) hx hsym 16 tab

end Sys2Proof.Machine
